-- ==== Sys2Proof/Word.lean ====
section
/-! DEFINITION. The widths of 00_scope.md R6 and R10: every value of the block is unsigned. -/

namespace Sys2Proof

/-- A register of the block and a command word: 32 bits (10_state.md R23, 30_encoding.md R90). -/
abbrev Word := BitVec 32

/-- A 16-bit wire field: ID, the four counts, TYPE, CLASS (20_memory.md R62). -/
abbrev Half := BitVec 16

/-- One byte of a buffer (20_memory.md R60). -/
abbrev Byte := BitVec 8

/-- A byte address of the host bus window (20_memory.md R60). -/
abbrev WinAddr := BitVec 12

end Sys2Proof
end

