-- ==== Sys2Proof/Config.lean ====
section
/-! DEFINITION. The parameters the hardware fixes (00_scope.md R6) and the values the spec leaves free. -/

namespace Sys2Proof.Config

/-- `MAX_DGRAM` (00_scope.md R6). -/
@[simp] abbrev maxDgram : Nat := 512

/-- `HDR_LEN` (00_scope.md R6). -/
@[simp] abbrev hdrLen : Nat := 12

/-- `Q_OFF` (00_scope.md R6). -/
@[simp] abbrev qOff : Nat := 12

/-- `Q_MIN_LEN` (00_scope.md R6). -/
@[simp] abbrev qMinLen : Nat := 13

/-- The size of IBUF (10_state.md R38). -/
@[simp] abbrev ibufSize : Nat := 512

/-- `NBUF_SIZE` (00_scope.md R6). -/
@[simp] abbrev nbufSize : Nat := 496

/-- `OBUF_SIZE` (00_scope.md R6). -/
@[simp] abbrev obufSize : Nat := 512

/-- The least length byte a STRICT walk refuses (41_question_codec.md R162(a)). -/
@[simp] abbrev strictLabel : Nat := 0x40

/-- The longest name a STRICT walk takes (41_question_codec.md R162(b)). -/
@[simp] abbrev strictName : Nat := 255

/-- DESIGN CHOICE (log 2), safe for one instance. A FREE VALUE: what a buffer byte that nothing has written since the
reset number `epoch` holds, by window address. "a model draws it nondeterministically", "fixed once
drawn" (93_implementation_defined.md U1, U2, U3; 70_reset_and_hazards.md R273). DESIGN CHOICE, unsafe: the draw
depends on the epoch and the address only, so two instances at one epoch agree in their unwritten bytes,
which the spec leaves open (log 2, log 11). -/
opaque freeByte : (epoch addr : Nat) → Byte

/-- DESIGN CHOICE (log 9), safe. A FREE VALUE: what a host program's `bnz` sees of a register the host
has never read. 30_encoding.md R100 speaks of "the value last read from REG" only. -/
opaque freeHostValue : (offset : Nat) → Word

end Sys2Proof.Config
end

