-- ==== Sys2Proof/Syntax.lean ====
section
/-! DEFINITION. The commands: one constructor per row of spec/opcode_table.json. -/

namespace Sys2Proof

/-- The command set DNSHQ-CMD v1 (30_encoding.md R91). A command has no operand field: its implicit
operands are fixed per opcode (30_encoding.md R95). -/
inductive Instr where
  /-- NOP (42_control.md R192). -/
  | nop
  /-- HDR_DECODE (40_header_codec.md R121). -/
  | hdrDecode
  /-- HDR_ENCODE (40_header_codec.md R123). -/
  | hdrEncode
  /-- Q_DECODE (41_question_codec.md R151). -/
  | qDecode
  /-- Q_ENCODE (41_question_codec.md R166). -/
  | qEncode
  /-- COMPOSE (42_control.md R193). -/
  | compose
  /-- PROCESS (42_control.md R194). -/
  | process
  /-- CLEAR (42_control.md R195). -/
  | clear
  deriving DecidableEq, Repr

end Sys2Proof
end

