-- ==== Sys2Proof/Machine/HostSyntax.lean ====
section
/-! DEFINITION. What the host can put on the bus, and the host operations of 30_encoding.md R100, R101. -/

namespace Sys2Proof.Machine

/-- The registers of the map (10_state.md R23), by their names there. `cmd` is CMD when written and
LAST_CMD when read. -/
inductive Reg where
  | ctrl | status | cmd | errInfo | inLen | outLen | polQdAn | polNsAr
  | hId | hFlags | hQdAn | hNsAr | qTypeClass | qName | qOutLen | qEnd
  deriving DecidableEq, Repr

/-- The three byte buffers (10_state.md R38, R39, R41). -/
inductive Buf where
  | ibuf | nbuf | obuf
  deriving DecidableEq, Repr

/-- The widths a host bus can use: 8, 16 or 32 bits (20_memory.md R64). -/
inductive BusWidth where
  | w8 | w16 | w32
  deriving DecidableEq, Repr

/-- One host access to the window (20_memory.md R61, R64). An 8-bit write carries its byte in bits 7:0
of `data` (log 12). -/
inductive Access where
  | read (width : BusWidth) (addr : WinAddr)
  | write (width : BusWidth) (addr : WinAddr) (data : Word)
  deriving DecidableEq, Repr

/-- What the bus carried for one access: `data` is what a read returned, and 0 for a write. -/
structure BusRecord where
  access : Access
  data : Word
  deriving DecidableEq, Repr

/-- A field REG.FIELD as `bnz` names it: bits `lo` to `lo + width - 1` of the register. -/
structure RegField where
  reg : Reg
  lo : Nat
  width : Nat
  deriving DecidableEq, Repr

/-- A label of a host program: one the program names (by number), or the fresh label of the
pseudo-operation that stands at source line `line` (30_encoding.md R101). -/
inductive Label where
  | named (name : Nat)
  | fresh (line : Nat)
  deriving DecidableEq, Repr

/-- The host operations that make at most one kind of bus transaction (30_encoding.md R100), and
`fetch`, whose expansion (30_encoding.md R101) depends on the value it reads. -/
inductive HostOp where
  /-- `wr REG, v` -/
  | wr (reg : Reg) (v : Word)
  /-- `rd REG` -/
  | rd (reg : Reg)
  /-- `wrb BUF[i], b` -/
  | wrb (buf : Buf) (i : Nat) (b : Byte)
  /-- `rdb BUF[i]` -/
  | rdb (buf : Buf) (i : Nat)
  /-- `cmd M` -/
  | cmd (m : Instr)
  /-- `bnz REG.FIELD, label` -/
  | bnz (field : RegField) (target : Label)
  /-- `fetch`: `rd OUT_LEN`, then `rdb OBUF[0]` ... `rdb OBUF[OUT_LEN-1]` -/
  | fetch
  deriving DecidableEq, Repr

/-- One operation of a host program with the labels that stand before it. -/
structure Line where
  labels : List Label
  op : HostOp
  deriving DecidableEq, Repr

/-- What a host program's source line may hold: an operation of R100, or a pseudo-operation of R101. -/
inductive SrcOp where
  | core (op : HostOp)
  | wait
  | run (m : Instr)
  | load (bytes : List Byte)
  | ack
  | setmode (ie hdr lbl strict : Nat)
  deriving DecidableEq, Repr

/-- A source line: `name:` before an operation is a label (30_encoding.md R100). -/
structure SrcLine where
  name : Option Nat := none
  op : SrcOp
  deriving DecidableEq, Repr

/-- Whose move the next step is (20_memory.md R70: one total order of steps). -/
inductive Turn where
  /-- The engine's: it executes the latched command, if there is one. -/
  | engine
  /-- The host's: one access that stands in no host program. -/
  | access (a : Access)
  /-- The host's: the next operation of its program. -/
  | hostOp
  /-- The reset input `rst` is asserted (70_reset_and_hazards.md R270). -/
  | rst
  deriving DecidableEq, Repr

end Sys2Proof.Machine
end

