-- ==== Sys2Proof/Machine/State.lean ====
section
/-! DEFINITION. The state of one DNSHQ instance (10_state.md R20), the host beside it, and the reasons a step can stop. -/

namespace Sys2Proof.Machine

/-- CTRL (10_state.md R24). Bits 31:4 are reserved: they read 0 and have no storage. -/
structure Ctrl where
  ie : Bool
  hdrMode : Bool
  lblMode : Bool
  strict : Bool
  deriving DecidableEq, Repr

/-- STATUS (10_state.md R25). Bits 7:5 and 31:12 are reserved. -/
structure Status where
  busy : Bool
  done : Bool
  respValid : Bool
  werr : Bool
  berr : Bool
  err : BitVec 4
  deriving DecidableEq, Repr

/-- ERR_INFO (10_state.md R27). Bits 15:3 and 31:26 are reserved. -/
structure ErrInfo where
  stage : BitVec 3
  offset : BitVec 10
  deriving DecidableEq, Repr

/-- Q_NAME (10_state.md R35). Bits 15:9 and 31:24 are reserved. -/
structure QName where
  nameLen : BitVec 9
  nLabels : BitVec 8
  deriving DecidableEq, Repr

/-- The error kinds of 60_exceptions.md R231. -/
inductive ErrKind where
  | truncatedInput | emptyDomain | malformedQuestion | oversize | illegalCommand
  deriving DecidableEq, Repr

/-- Where an error arose (60_exceptions.md R233). -/
inductive Stage where
  | command | header | question
  deriving DecidableEq, Repr

/-- What `raise Err(code, offset)` carries (00_scope.md R12), with its stage. -/
structure CmdError where
  kind : ErrKind
  stage : Stage
  offset : Nat
  deriving DecidableEq, Repr

/-- The buffer bytes written since reset, by window address, addresses rising (log 2). -/
abbrev Memory := List Host.Cell

/-- THE MODEL'S OWN: the host agent and the order of turns to come (log 4, log 9, log 10). -/
structure Env where
  /-- Whose move each coming step is. When it is empty the engine moves first, then the program. -/
  sched : List Turn
  /-- The host's program. -/
  program : List Line
  /-- The next line of the program. -/
  pc : Nat
  /-- Accesses that a `fetch` still has to make. -/
  pending : List Access
  /-- Every access made, newest first, with what a read returned. -/
  trace : List BusRecord
  deriving DecidableEq, Repr

/-- The state. The block's own fields carry the names of 10_state.md R20, R23; `epoch` and `env` are
the model's. -/
structure State where
  ctrl : Ctrl
  status : Status
  /-- The command latch, which reads as LAST_CMD (10_state.md R26, R40; log 6). -/
  lastCmd : Word
  errInfo : ErrInfo
  inLen : BitVec 10
  outLen : BitVec 10
  polQdAn : Word
  polNsAr : Word
  hId : Half
  hFlags : Half
  hQdAn : Word
  hNsAr : Word
  qTypeClass : Word
  qName : QName
  qOutLen : BitVec 10
  qEnd : BitVec 10
  /-- IBUF, NBUF and OBUF at their window addresses. -/
  mem : Memory
  /-- How many resets there have been: the counter the free bytes are applied to (log 2). -/
  epoch : Nat
  env : Env
  deriving DecidableEq, Repr

/-- Why a step stops. Nothing the block does stops it (60_exceptions.md R237). -/
inductive Fault where
  /-- Raised by the host's turn when its program branches to a label it does not declare, which no
  assembler could encode (30_encoding.md R100; log 9). Safe: a well-formed program never raises it. -/
  | undefinedLabel
  deriving DecidableEq, Repr

/-- Why a step is refused. -/
inductive Refusal where
  /-- An instruction that has no meaning yet. Safe. No arm of `exec` raises it: all eight have their meaning. -/
  | notModelled (mnemonic : String)
  deriving DecidableEq, Repr

/-- A host with no program and no access to make. -/
def Env.idle : Env where
  sched := []
  program := []
  pc := 0
  pending := []
  trace := []

/-- The machine right after reset (10_state.md R45; 70_reset_and_hazards.md R270, R271). Every register
is 0 but POL_QD_AN, and no buffer byte is written (70_reset_and_hazards.md R273). -/
def State.reset : State where
  ctrl := ⟨false, false, false, false⟩
  status := ⟨false, false, false, false, false, 0⟩
  lastCmd := 0x0000_0000
  errInfo := ⟨0, 0⟩
  inLen := 0
  outLen := 0
  polQdAn := 0x0000_0001
  polNsAr := 0x0000_0000
  hId := 0
  hFlags := 0
  hQdAn := 0x0000_0000
  hNsAr := 0x0000_0000
  qTypeClass := 0x0000_0000
  qName := ⟨0, 0⟩
  qOutLen := 0
  qEnd := 0
  mem := []
  epoch := 0
  env := Env.idle

end Sys2Proof.Machine
end

