-- ==== Sys2Proof/Machine/Ops.lean ====
section
/-! DEFINITION. The named operations over the buffers and the command record: bytes, 16-bit wire fields, copies, acceptance, completion, the error record, reset. -/

namespace Sys2Proof.Machine

/-! ### Bytes of the window -/

/-- The value written last at address `a`, if any since reset. -/
def Memory.find : Memory → Nat → Option Byte
  | [], _ => none
  | (k, v) :: m, a => if a = k then some v else Memory.find m a

/-- Store byte `b` at address `a`, keeping the addresses in rising order with one entry each. -/
def Memory.put : Memory → Nat → Byte → Memory
  | [], a, b => [(a, b)]
  | (k, v) :: m, a, b =>
    if a < k then (a, b) :: (k, v) :: m
    else if a = k then (a, b) :: m
    else (k, v) :: Memory.put m a b

/-- The window address of byte 0 of a buffer (20_memory.md R61). -/
def Buf.base : Buf → Nat
  | .ibuf => 0x400
  | .nbuf => 0x600
  | .obuf => 0x800

/-- `a` is the window address of a byte of a buffer (20_memory.md R61). -/
def isBufAddr (a : Nat) : Bool :=
  decide ((0x400 ≤ a ∧ a < 0x600) ∨ (0x600 ≤ a ∧ a < 0x7F0) ∨ (0x800 ≤ a ∧ a < 0xA00))

/-- Addresses strictly rising. -/
def Memory.sorted : Memory → Bool
  | [] => true
  | (k, _) :: m => m.all (fun c => decide (k < c.1)) && Memory.sorted m

/-- The canonical form of memory: addresses strictly rising, each one a buffer byte's (log 2). -/
def Memory.wf (m : Memory) : Bool := Memory.sorted m && m.all (fun c => isBufAddr c.1)

/-- What the window's byte at `a` holds: the byte written last, or the free byte of an unwritten one
(20_memory.md R77; 93_implementation_defined.md U1 to U3). -/
def State.byteAt (s : State) (a : Nat) : Byte := (s.mem.find a).getD (Config.freeByte s.epoch a)

/-- Store a byte at a window address. -/
def State.putByte (s : State) (a : Nat) (b : Byte) : State := { s with mem := s.mem.put a b }

/-- Byte `i` of a buffer: `IBUF[i]`, `NBUF[i]`, `OBUF[i]` (00_scope.md R11). -/
def State.buf (s : State) (b : Buf) (i : Nat) : Byte := s.byteAt (b.base + i)

/-- Set byte `i` of a buffer. -/
def State.setBuf (s : State) (b : Buf) (i : Nat) (v : Byte) : State := s.putByte (b.base + i) v

/-- Store bytes at rising addresses from `a`. -/
def Memory.putAll (m : Memory) (a : Nat) : List Byte → Memory
  | [] => m
  | b :: bs => Memory.putAll (m.put a b) (a + 1) bs

/-- Bytes `i`, `i+1`, ... of a buffer take the bytes of a list. With the bytes of `State.bytes` this is
`copy(D, d, S, s, n)`, every source byte read from the state the copy starts in; with those of
`wireBytes` it is `MemWrite(B, a, 2, v)` (00_scope.md R11). -/
def State.putBytes (s : State) (b : Buf) (i : Nat) (bs : List Byte) : State :=
  { s with mem := s.mem.putAll (b.base + i) bs }

/-- Bytes `i` to `i + n - 1` of a buffer. -/
def State.bytes (s : State) (b : Buf) (i n : Nat) : List Byte := (List.range n).map fun k => s.buf b (i + k)

/-! ### 16-bit wire fields, big-endian (20_memory.md R62) -/

/-- `be16(h, l)` is `{h, l}` (00_scope.md R10). -/
def be16 (h l : Byte) : Half := h ++ l

/-- `hi8(v)` is `v[15:8]` (00_scope.md R10). -/
def hi8 (v : Half) : Byte := v.extractLsb' 8 8

/-- `lo8(v)` is `v[7:0]` (00_scope.md R10). -/
def lo8 (v : Half) : Byte := v.extractLsb' 0 8

/-- The two bytes of a 16-bit wire field, the most significant at the lower offset (20_memory.md R62). -/
def wireBytes (v : Half) : List Byte := [hi8 v, lo8 v]

/-- `MemRead(B, a, 2)` (00_scope.md R11; 20_memory.md R62). -/
def State.memRead2 (s : State) (b : Buf) (a : Nat) : Half := be16 (s.buf b a) (s.buf b (a + 1))

/-! ### The command record -/

/-- Acceptance of a command word (42_control.md R190): the three changes, and nothing else. -/
def State.accept (s : State) (w : Word) : State :=
  { s with lastCmd := w, status := { s.status with busy := true, done := false } }

/-- `STATUS.RESP_VALID <- 0; OUT_LEN <- 0`, which every command but NOP and COMPOSE begins with
(42_control.md R201(a)). -/
def State.dropResponse (s : State) : State :=
  { s with outLen := 0, status := { s.status with respValid := false } }

/-- Completion of a command that succeeds (42_control.md R191). WERR and BERR are not changed. -/
def State.complete (s : State) : State :=
  { s with
    errInfo := ⟨0, 0⟩
    status := { s.status with busy := false, done := true, err := 0 } }

/-- The error codes (60_exceptions.md R231). -/
def ErrKind.code : ErrKind → BitVec 4
  | .truncatedInput => 1
  | .emptyDomain => 2
  | .malformedQuestion => 3
  | .oversize => 4
  | .illegalCommand => 5

/-- The codes of ERR_INFO.STAGE (10_state.md R27; 60_exceptions.md R233). -/
def Stage.code : Stage → BitVec 3
  | .command => 1
  | .header => 2
  | .question => 3

/-- TAKING AN ERROR, the one operation every failing command ends in: completion with the code, the
stage and the offset, no response, and nothing else (42_control.md R191; 60_exceptions.md R230, R236,
R241). There is no saved pc, no vector and no mode. -/
def State.fail (s : State) (e : CmdError) : State :=
  { s with
    outLen := 0
    errInfo := ⟨e.stage.code, BitVec.ofNat 10 e.offset⟩
    status := { s.status with busy := false, done := true, respValid := false, err := e.kind.code } }

/-- There is no return from an error (60_exceptions.md R242). What stands beside it is the host's
acknowledgement, a 1 written to STATUS.DONE. -/
def State.acknowledge (s : State) : State := { s with status := { s.status with done := false } }

/-- TRUNCATED_INPUT: OFFSET is LEN (60_exceptions.md R232). -/
def CmdError.truncated (stage : Stage) (len : Nat) : CmdError := ⟨.truncatedInput, stage, len⟩

/-- EMPTY_DOMAIN at offset 12 (41_question_codec.md R154). -/
def CmdError.emptyDomain : CmdError := ⟨.emptyDomain, .question, Config.qOff⟩

/-- MALFORMED_QUESTION (60_exceptions.md R232). -/
def CmdError.malformed (off : Nat) : CmdError := ⟨.malformedQuestion, .question, off⟩

/-- OVERSIZE: stage 1, offset 0 (60_exceptions.md R232, R233). -/
def CmdError.oversize : CmdError := ⟨.oversize, .command, 0⟩

/-- ILLEGAL_COMMAND: stage 1, offset 0 (42_control.md R196). -/
def CmdError.illegal : CmdError := ⟨.illegalCommand, .command, 0⟩

/-- The reset event, from any state (70_reset_and_hazards.md R270): every register takes its reset
value and the latched command is gone. The buffers are unspecified afterwards (R273), so their bytes
are free again under the next epoch (log 3). The host is no part of the block and stays. -/
def State.rst (s : State) : State := { State.reset with epoch := s.epoch + 1, env := s.env }

end Sys2Proof.Machine
end

