-- ==== Sys2Proof/Machine/Flags.lean ====
section
/-! DEFINITION. The flags: the words CTRL, STATUS, ERR_INFO and Q_NAME as the bus sees them, the write-1-to-clear bits, `irq`, and the field views of H_FLAGS. The block has no condition codes (10_state.md R46). -/

namespace Sys2Proof.Machine

/-- CTRL as a read gives it (10_state.md R24). -/
def Ctrl.toWord (c : Ctrl) : Word :=
  0#28 ++ BitVec.ofBool c.strict ++ BitVec.ofBool c.lblMode ++ BitVec.ofBool c.hdrMode ++ BitVec.ofBool c.ie

/-- The RW bits 3:0 of a word written to CTRL (10_state.md R24; 42_control.md R197). -/
def Ctrl.ofWord (v : Word) : Ctrl where
  ie := v.getLsbD 0
  hdrMode := v.getLsbD 1
  lblMode := v.getLsbD 2
  strict := v.getLsbD 3

/-- STATUS as a read gives it (10_state.md R25). -/
def Status.toWord (t : Status) : Word :=
  0#20 ++ t.err ++ 0#3 ++ BitVec.ofBool t.berr ++ BitVec.ofBool t.werr ++ BitVec.ofBool t.respValid
    ++ BitVec.ofBool t.done ++ BitVec.ofBool t.busy

/-- A write to STATUS: a 1 in bit 1, 3 or 4 clears DONE, WERR or BERR, and no other bit changes
(10_state.md R25; 20_memory.md R66). -/
def Status.writeOnesToClear (t : Status) (v : Word) : Status :=
  { t with
    done := t.done && !v.getLsbD 1
    werr := t.werr && !v.getLsbD 3
    berr := t.berr && !v.getLsbD 4 }

/-- ERR_INFO as a read gives it (10_state.md R27). -/
def ErrInfo.toWord (e : ErrInfo) : Word := 0#6 ++ e.offset ++ 0#13 ++ e.stage

/-- Q_NAME as a read gives it (10_state.md R35). -/
def QName.toWord (q : QName) : Word := 0#8 ++ q.nLabels ++ 0#7 ++ q.nameLen

/-- A write to Q_NAME: NAME_LEN is WARL, NLABELS stays (42_control.md R200). -/
def QName.write (q : QName) (v : Word) : QName :=
  let n : BitVec 9 := v.extractLsb' 0 9
  if n.toNat ≤ Config.nbufSize then { q with nameLen := n } else q

/-- The interrupt output, a level (10_state.md R42; 60_exceptions.md R239). -/
def State.irq (s : State) : Bool := s.ctrl.ie && s.status.done

/-! ### The field views of H_FLAGS (10_state.md R32; 40_header_codec.md R120) -/

/-- QR, wire byte 2 bit 7. -/
def flagQr (f : Half) : BitVec 1 := f.extractLsb' 15 1
/-- OPCODE, wire byte 2 bits 6:3. -/
def flagOpcode (f : Half) : BitVec 4 := f.extractLsb' 11 4
/-- AA, wire byte 2 bit 2. -/
def flagAa (f : Half) : BitVec 1 := f.extractLsb' 10 1
/-- TC, wire byte 2 bit 1. -/
def flagTc (f : Half) : BitVec 1 := f.extractLsb' 9 1
/-- RD, wire byte 2 bit 0. -/
def flagRd (f : Half) : BitVec 1 := f.extractLsb' 8 1
/-- RA, wire byte 3 bit 7. -/
def flagRa (f : Half) : BitVec 1 := f.extractLsb' 7 1
/-- Z, wire byte 3 bits 6:4, reserved by the document and carried through. -/
def flagZ (f : Half) : BitVec 3 := f.extractLsb' 4 3
/-- RCODE, wire byte 3 bits 3:0. -/
def flagRcode (f : Half) : BitVec 4 := f.extractLsb' 0 4

/-- The flags image a SCOPE_ZERO decode keeps of wire byte 2: `{IBUF[2][7], 15'b0}` (40_header_codec.md R121). -/
def scopeZeroFlags (b2 : Byte) : Half := b2.extractLsb' 7 1 ++ 0#15

end Sys2Proof.Machine
end

