-- ==== Sys2Proof/Machine/Operands.lean ====
section
/-! DEFINITION. The implicit operands of the commands (30_encoding.md R95), and the registers as the bus reads and writes them (10_state.md R23). -/

namespace Sys2Proof.Machine

/-! ### Implicit operands -/

/-- IN_LEN.LEN (10_state.md R28). -/
def State.len (s : State) : Nat := s.inLen.toNat

/-- CTRL.HDR_MODE = 1, SCOPE_ZERO (10_state.md R24). -/
def State.scopeZero (s : State) : Bool := s.ctrl.hdrMode

/-- CTRL.LBL_MODE = 1, TWO_LABEL (10_state.md R24). -/
def State.twoLabel (s : State) : Bool := s.ctrl.lblMode

/-- CTRL.STRICT (10_state.md R24). -/
def State.strict (s : State) : Bool := s.ctrl.strict

/-- Bits 15:0 of a register that holds two 16-bit fields. -/
def lowHalf (w : Word) : Half := w.extractLsb' 0 16

/-- Bits 31:16 of a register that holds two 16-bit fields. -/
def highHalf (w : Word) : Half := w.extractLsb' 16 16

/-- `{hi, lo}` of two 16-bit fields. -/
def packHalves (hi lo : Half) : Word := hi ++ lo

/-- POL_QDCOUNT (10_state.md R30). -/
def State.polQdcount (s : State) : Half := lowHalf s.polQdAn
/-- POL_ANCOUNT (10_state.md R30). -/
def State.polAncount (s : State) : Half := highHalf s.polQdAn
/-- POL_NSCOUNT (10_state.md R30). -/
def State.polNscount (s : State) : Half := lowHalf s.polNsAr
/-- POL_ARCOUNT (10_state.md R30). -/
def State.polArcount (s : State) : Half := highHalf s.polNsAr
/-- TYPE (10_state.md R34). -/
def State.qType (s : State) : Half := lowHalf s.qTypeClass
/-- CLASS (10_state.md R34). -/
def State.qClass (s : State) : Half := highHalf s.qTypeClass
/-- Q_NAME.NAME_LEN (10_state.md R35). -/
def State.nameLen (s : State) : Nat := s.qName.nameLen.toNat

/-! ### The register map -/

/-- The byte offsets of the registers in the window (10_state.md R23). -/
def Reg.offset : Reg → Nat
  | .ctrl => 0x000
  | .status => 0x004
  | .cmd => 0x008
  | .errInfo => 0x00C
  | .inLen => 0x010
  | .outLen => 0x014
  | .polQdAn => 0x018
  | .polNsAr => 0x01C
  | .hId => 0x020
  | .hFlags => 0x024
  | .hQdAn => 0x028
  | .hNsAr => 0x02C
  | .qTypeClass => 0x030
  | .qName => 0x034
  | .qOutLen => 0x038
  | .qEnd => 0x03C

/-- The register at a byte offset. None where the map says reserved (10_state.md R23, R43). -/
def Reg.ofOffset : Nat → Option Reg
  | 0x000 => some .ctrl
  | 0x004 => some .status
  | 0x008 => some .cmd
  | 0x00C => some .errInfo
  | 0x010 => some .inLen
  | 0x014 => some .outLen
  | 0x018 => some .polQdAn
  | 0x01C => some .polNsAr
  | 0x020 => some .hId
  | 0x024 => some .hFlags
  | 0x028 => some .hQdAn
  | 0x02C => some .hNsAr
  | 0x030 => some .qTypeClass
  | 0x034 => some .qName
  | 0x038 => some .qOutLen
  | 0x03C => some .qEnd
  | _ => none

/-- What a 32-bit read of a register returns: reserved bits 0, CMD as LAST_CMD (42_control.md R198). -/
def State.readReg (s : State) : Reg → Word
  | .ctrl => s.ctrl.toWord
  | .status => s.status.toWord
  | .cmd => s.lastCmd
  | .errInfo => s.errInfo.toWord
  | .inLen => s.inLen.setWidth 32
  | .outLen => s.outLen.setWidth 32
  | .polQdAn => s.polQdAn
  | .polNsAr => s.polNsAr
  | .hId => s.hId.setWidth 32
  | .hFlags => s.hFlags.setWidth 32
  | .hQdAn => s.hQdAn
  | .hNsAr => s.hNsAr
  | .qTypeClass => s.qTypeClass
  | .qName => s.qName.toWord
  | .qOutLen => s.qOutLen.setWidth 32
  | .qEnd => s.qEnd.setWidth 32

/-- A legal 32-bit write to a register while BUSY = 0 (42_control.md R197): the writable fields take
the value, CMD accepts a command (R190), and a read-only register ignores it (20_memory.md R66). -/
def State.writeReg (s : State) (v : Word) : Reg → State
  | .ctrl => { s with ctrl := Ctrl.ofWord v }
  | .status => { s with status := s.status.writeOnesToClear v }
  | .cmd => s.accept v
  | .errInfo => s
  | .inLen => { s with inLen := v.extractLsb' 0 10 }
  | .outLen => s
  | .polQdAn => { s with polQdAn := v }
  | .polNsAr => { s with polNsAr := v }
  | .hId => { s with hId := v.extractLsb' 0 16 }
  | .hFlags => { s with hFlags := v.extractLsb' 0 16 }
  | .hQdAn => { s with hQdAn := v }
  | .hNsAr => { s with hNsAr := v }
  | .qTypeClass => { s with qTypeClass := v }
  | .qName => { s with qName := s.qName.write v }
  | .qOutLen => s
  | .qEnd => s

/-! ### Fields a host program can branch on (30_encoding.md R100) -/

/-- The value of REG.FIELD in a word read from REG. -/
def RegField.get (f : RegField) (w : Word) : Nat := (w.toNat >>> f.lo) % 2 ^ f.width

/-- STATUS.BUSY (10_state.md R25). -/
def RegField.busy : RegField := ⟨.status, 0, 1⟩
/-- STATUS.DONE (10_state.md R25). -/
def RegField.done : RegField := ⟨.status, 1, 1⟩
/-- STATUS.RESP_VALID (10_state.md R25). -/
def RegField.respValid : RegField := ⟨.status, 2, 1⟩
/-- STATUS.WERR (10_state.md R25). -/
def RegField.werr : RegField := ⟨.status, 3, 1⟩
/-- STATUS.BERR (10_state.md R25). -/
def RegField.berr : RegField := ⟨.status, 4, 1⟩
/-- STATUS.ERR (10_state.md R25). -/
def RegField.err : RegField := ⟨.status, 8, 4⟩
/-- ERR_INFO.STAGE (10_state.md R27). -/
def RegField.stage : RegField := ⟨.errInfo, 0, 3⟩
/-- ERR_INFO.OFFSET (10_state.md R27). -/
def RegField.offset : RegField := ⟨.errInfo, 16, 10⟩

end Sys2Proof.Machine
end

