-- ==== Sys2Proof/Machine/HeaderCodec.lean ====
section
/-! DEFINITION. The Header Codec: HDR_DECODE and HDR_ENCODE (40_header_codec.md). -/

namespace Sys2Proof.Machine

/-- The four header registers written from decoded values (40_header_codec.md R121, last lines). -/
def State.setHeader (s : State) (id flags qd an ns ar : Half) : State :=
  { s with hId := id, hFlags := flags, hQdAn := packHalves an qd, hNsAr := packHalves ar ns }

/-- The length checks of HDR_DECODE, in order (40_header_codec.md R121; 60_exceptions.md R235). -/
def hdrCheck (n : Nat) : Option CmdError :=
  if n > Config.maxDgram then some .oversize
  else if n < Config.hdrLen then some (.truncated .header n)
  else none

/-- The fields a FULL_EXTRACT decode takes from the wire (40_header_codec.md R121). -/
def hdrFullExtract (s : State) : State :=
  s.setHeader (s.memRead2 .ibuf 0) (s.memRead2 .ibuf 2) (s.memRead2 .ibuf 4) (s.memRead2 .ibuf 6)
    (s.memRead2 .ibuf 8) (s.memRead2 .ibuf 10)

/-- The fields a SCOPE_ZERO decode keeps: ID, QR, and POL_QDCOUNT for the question count
(40_header_codec.md R121). -/
def hdrScopeZero (s : State) : State :=
  s.setHeader (s.memRead2 .ibuf 0) (scopeZeroFlags (s.buf .ibuf 2)) s.polQdcount 0 0 0

/-- The body of HDR_DECODE, without acceptance and completion (40_header_codec.md R121). It validates
nothing but the length (R122). -/
def hdrDecodeBody (s : State) : Except CmdError State :=
  match hdrCheck s.len with
  | some e => .error e
  | none => .ok (if s.scopeZero then hdrScopeZero s else hdrFullExtract s)

/-- The twelve header bytes HDR_ENCODE writes, in wire order (40_header_codec.md R123). -/
def headerBytes (s : State) : List Byte :=
  wireBytes s.hId
    ++ [hi8 s.hFlags, lo8 s.hFlags]
    ++ wireBytes s.polQdcount
    ++ wireBytes s.polAncount
    ++ wireBytes s.polNscount
    ++ wireBytes s.polArcount

/-- The body of HDR_ENCODE: OBUF[0..11] from H_ID, H_FLAGS and the policy (40_header_codec.md R123). -/
def hdrEncodeBody (s : State) : State := s.putBytes .obuf 0 (headerBytes s)

/-- The end of a command whose body may raise: the error is recorded on `s`, or the body's result
completes (42_control.md R191; 60_exceptions.md R236). -/
def State.finish (s : State) : Except CmdError State → State
  | .error e => s.fail e
  | .ok t => t.complete

/-- HDR_DECODE (40_header_codec.md R121). -/
def execHdrDecode (s : State) : Host.Outcome State Fault Refusal :=
  .next (s.dropResponse.finish (hdrDecodeBody s.dropResponse))

/-- HDR_ENCODE (40_header_codec.md R123). -/
def execHdrEncode (s : State) : Host.Outcome State Fault Refusal :=
  .next (hdrEncodeBody s.dropResponse).complete

end Sys2Proof.Machine
end

