-- ==== Sys2Proof/Machine/QuestionCodec.lean ====
section
/-! DEFINITION. The Question Codec: Q_DECODE and Q_ENCODE (41_question_codec.md). -/

namespace Sys2Proof.Machine

/-- The length prechecks of Q_DECODE, in order (41_question_codec.md R153). -/
def qLenCheck (n : Nat) : Option CmdError :=
  if n > Config.maxDgram then some .oversize
  else if n < Config.qMinLen then some (.truncated .question n)
  else none

/-- `check_label(c, L)`: the STRICT value, the STRICT name length, then the overrun
(41_question_codec.md R162, R157). -/
def checkLabel (strict : Bool) (n c l : Nat) : Option CmdError :=
  if strict = true ∧ l ≥ Config.strictLabel then some (.malformed c)
  else if strict = true ∧ (c - Config.qOff) + l + 2 > Config.strictName then some (.malformed c)
  else if c + 1 + l ≥ n then some (.malformed n)
  else none

/-- The length byte at the cursor (41_question_codec.md R152). -/
def State.lengthAt (s : State) (c : Nat) : Nat := (s.buf .ibuf c).toNat

/-- The CHAIN walk (41_question_codec.md R155): from cursor `c` with `k` labels counted, to the
terminator's offset and the final count. The first argument bounds the passes; it starts at LEN and
never runs out, since each pass moves the cursor up by at least 2 and below LEN (R165; log 8). -/
def walkChain (s : State) : Nat → Nat → Nat → Except CmdError (Nat × Nat)
  | 0, _, _ => .error (.malformed s.len)
  | passes + 1, c, k =>
    if s.lengthAt c = 0 then .ok (c, k)
    else match checkLabel s.strict s.len c (s.lengthAt c) with
      | some e => .error e
      | none => walkChain s passes (c + 1 + s.lengthAt c) (k + 1)

/-- One label of the TWO_LABEL walk: a zero length is malformed, and the cursor moves past the label
(41_question_codec.md R158, R159(b)). -/
def twoLabelPass (s : State) (c : Nat) : Except CmdError Nat :=
  if s.lengthAt c = 0 then .error (.malformed c)
  else match checkLabel s.strict s.len c (s.lengthAt c) with
    | some e => .error e
    | none => .ok (c + 1 + s.lengthAt c)

/-- The TWO_LABEL walk (41_question_codec.md R158, R159). -/
def walkTwo (s : State) : Except CmdError (Nat × Nat) :=
  match twoLabelPass s Config.qOff with
  | .error e => .error e
  | .ok c1 =>
    match twoLabelPass s c1 with
    | .error e => .error e
    | .ok c2 => if s.lengthAt c2 = 0 then .ok (c2, 2) else .error (.malformed c2)

/-- The walk of the mode CTRL.LBL_MODE selects (41_question_codec.md R151). -/
def walk (s : State) : Except CmdError (Nat × Nat) :=
  if s.twoLabel then walkTwo s else walkChain s s.len Config.qOff 0

/-- The commit of a success with the terminator at `c` and `k` labels (41_question_codec.md R160, R161). -/
def qCommit (s : State) (c k : Nat) : State :=
  { s.putBytes .nbuf 0 (s.bytes .ibuf Config.qOff (c + 1 - Config.qOff)) with
    qTypeClass := packHalves (s.memRead2 .ibuf (c + 3)) (s.memRead2 .ibuf (c + 1))
    qName := ⟨BitVec.ofNat 9 (c + 1 - Config.qOff), BitVec.ofNat 8 k⟩
    qEnd := BitVec.ofNat 10 (c + 5) }

/-- Everything Q_DECODE checks before it commits: the terminator's offset and the label count, or the
first check that fails (41_question_codec.md R151, R153, R154, R160; 60_exceptions.md R235). -/
def qScan (s : State) : Except CmdError (Nat × Nat) :=
  match qLenCheck s.len with
  | some e => .error e
  | none =>
    if s.lengthAt Config.qOff = 0 then .error .emptyDomain
    else match walk s with
      | .error e => .error e
      | .ok (c, k) => if c + 4 ≥ s.len then .error (.malformed s.len) else .ok (c, k)

/-- The body of Q_DECODE (41_question_codec.md R151). It reads no header register (R150). -/
def qDecodeBody (s : State) : Except CmdError State :=
  match qScan s with
  | .error e => .error e
  | .ok (c, k) => .ok (qCommit s c k)

/-- The bytes Q_ENCODE writes: the Name as NBUF holds it, TYPE, CLASS (41_question_codec.md R166). -/
def questionBytes (s : State) : List Byte :=
  s.bytes .nbuf 0 s.nameLen ++ wireBytes s.qType ++ wireBytes s.qClass

/-- The body of Q_ENCODE: OBUF from offset 12 up, unchecked (41_question_codec.md R166). -/
def qEncodeBody (s : State) : State :=
  { s.putBytes .obuf Config.hdrLen (questionBytes s) with qOutLen := BitVec.ofNat 10 (s.nameLen + 4) }

/-- Q_DECODE (41_question_codec.md R151). -/
def execQDecode (s : State) : Host.Outcome State Fault Refusal :=
  .next (s.dropResponse.finish (qDecodeBody s.dropResponse))

/-- Q_ENCODE (41_question_codec.md R166). -/
def execQEncode (s : State) : Host.Outcome State Fault Refusal :=
  .next (qEncodeBody s.dropResponse).complete

end Sys2Proof.Machine
end

