-- ==== Sys2Proof/Machine/Control.lean ====
section
/-! DEFINITION. Command control: NOP, COMPOSE, PROCESS, CLEAR and the illegal words (42_control.md). -/

namespace Sys2Proof.Machine

/-- The body of COMPOSE: a positional append, unchecked (42_control.md R193). -/
def composeBody (s : State) : State :=
  { s with outLen := BitVec.ofNat 10 (12 + s.qOutLen.toNat), status := { s.status with respValid := true } }

/-- The result registers to 0 (42_control.md R195). -/
def clearBody (s : State) : State :=
  { s with
    hId := 0, hFlags := 0, hQdAn := 0, hNsAr := 0
    qTypeClass := 0, qName := ⟨0, 0⟩, qOutLen := 0, qEnd := 0 }

/-- The stages of PROCESS, from a state whose response is already dropped. The first stage that raises
ends it, and the stages before it stay committed (42_control.md R194; 60_exceptions.md R236). -/
def processStages (s : State) : State :=
  match hdrDecodeBody s with
  | .error e => s.fail e
  | .ok s1 =>
    let s2 := hdrEncodeBody s1
    match qDecodeBody s2 with
    | .error e => s2.fail e
    | .ok s3 => (composeBody (qEncodeBody s3)).complete

/-- NOP (42_control.md R192): completion only. -/
def execNop (s : State) : Host.Outcome State Fault Refusal := .next s.complete

/-- COMPOSE (42_control.md R193). -/
def execCompose (s : State) : Host.Outcome State Fault Refusal := .next (composeBody s).complete

/-- PROCESS (42_control.md R194). -/
def execProcess (s : State) : Host.Outcome State Fault Refusal := .next (processStages s.dropResponse)

/-- CLEAR (42_control.md R195). -/
def execClear (s : State) : Host.Outcome State Fault Refusal := .next (clearBody s.dropResponse).complete

/-- An illegal word: ILLEGAL_COMMAND, and no response (42_control.md R196). -/
def execIllegal (s : State) : Host.Outcome State Fault Refusal := .next (s.dropResponse.fail .illegal)

end Sys2Proof.Machine
end

