-- ==== Sys2Proof/Machine/Dispatch.lean ====
section
/-! DEFINITION. One arm per command. -/

namespace Sys2Proof.Machine

def exec (i : Instr) (s : State) : Host.Outcome State Fault Refusal :=
  match i with
  | .nop => Sys2Proof.Machine.execNop s
  | .hdrDecode => Sys2Proof.Machine.execHdrDecode s
  | .hdrEncode => Sys2Proof.Machine.execHdrEncode s
  | .qDecode => Sys2Proof.Machine.execQDecode s
  | .qEncode => Sys2Proof.Machine.execQEncode s
  | .compose => Sys2Proof.Machine.execCompose s
  | .process => Sys2Proof.Machine.execProcess s
  | .clear => Sys2Proof.Machine.execClear s

end Sys2Proof.Machine
end

