-- ==== Sys2Proof/WellFormed.lean ====
section
/-! DEFINITION. The checks on terms: instructions, host operations and host programs. The check on a command word stands beside the decoder. -/

namespace Sys2Proof

/-- A command has no operand (30_encoding.md R90), so every instruction is well formed. -/
def Instr.wf : Instr → Bool
  | .nop => true
  | .hdrDecode => true
  | .hdrEncode => true
  | .qDecode => true
  | .qEncode => true
  | .compose => true
  | .process => true
  | .clear => true

namespace Machine

/-- The bytes of each buffer (00_scope.md R6; 10_state.md R38, R39, R41). -/
def Buf.size : Buf → Nat
  | .ibuf => Config.ibufSize
  | .nbuf => Config.nbufSize
  | .obuf => Config.obufSize

/-- A field lies in a 32-bit register. -/
def RegField.wf (f : RegField) : Bool := decide (0 < f.width ∧ f.lo + f.width ≤ 32)

/-- The labels a program declares, in order. -/
def declaredLabels (p : List Line) : List Label := p.flatMap Line.labels

/-- `wrb` and `rdb` name a byte of the buffer, and `bnz` a field and a label that exist. -/
def HostOp.wf (p : List Line) : HostOp → Bool
  | .wr _ _ => true
  | .rd _ => true
  | .wrb b i _ => decide (i < b.size)
  | .rdb b i => decide (i < b.size)
  | .cmd m => m.wf
  | .bnz f l => f.wf && (declaredLabels p).contains l
  | .fetch => true

/-- A host program is well formed when each operation is and no label is declared twice (log 9). -/
def programWf (p : List Line) : Bool :=
  p.all (fun l => l.op.wf p) && decide (declaredLabels p).Nodup

/-- A `load` holds at most 512 bytes (70_reset_and_hazards.md R274, R283). -/
def SrcOp.wf : SrcOp → Bool
  | .core _ => true
  | .wait => true
  | .run m => m.wf
  | .load bytes => decide (bytes.length ≤ Config.maxDgram)
  | .ack => true
  | .setmode ie hdr lbl strict => decide (ie < 2 ∧ hdr < 2 ∧ lbl < 2 ∧ strict < 2)

end Machine

end Sys2Proof
end

