-- ==== Sys2Proof/Decode.lean ====
section
/-! DEFINITION. The command word: its decoder, total on 32-bit words, and its encoder (30_encoding.md R90 to R93). -/

namespace Sys2Proof

/-- RSV, bits 31:4 (30_encoding.md R90). -/
def rsvField (w : Word) : BitVec 28 := w.extractLsb' 4 28

/-- OP, bits 3:0 (30_encoding.md R90). -/
def opField (w : Word) : BitVec 4 := w.extractLsb' 0 4

/-- "every word is either one of the eight defined words or illegal" (30_encoding.md R93). -/
def isCommandWord (w : Word) : Bool := rsvField w == 0 && decide ((opField w).toNat < 8)

/-- Why a word is no command. The engine still executes such a word: it completes with
ILLEGAL_COMMAND (42_control.md R196). -/
inductive DecodeError where
  /-- Some bit of 31:4 is set (30_encoding.md R92). -/
  | reservedBits
  /-- OP is in 0x8..0xF (30_encoding.md R93). -/
  | reservedOpcode
  deriving DecidableEq, Repr

/-- Format C, and the opcode map (30_encoding.md R90, R91). No mode changes how a command word decodes
(30_encoding.md R99). -/
def decode (w : Word) : Except DecodeError Instr :=
  if rsvField w ≠ 0 then .error .reservedBits
  else match (opField w).toNat with
    | 0x0 => .ok .nop
    | 0x1 => .ok .hdrDecode
    | 0x2 => .ok .hdrEncode
    | 0x3 => .ok .qDecode
    | 0x4 => .ok .qEncode
    | 0x5 => .ok .compose
    | 0x6 => .ok .process
    | 0x7 => .ok .clear
    | _ => .error .reservedOpcode

/-- OP of each mnemonic (30_encoding.md R91). -/
def opcode : Instr → BitVec 4
  | .nop => 0x0
  | .hdrDecode => 0x1
  | .hdrEncode => 0x2
  | .qDecode => 0x3
  | .qEncode => 0x4
  | .compose => 0x5
  | .process => 0x6
  | .clear => 0x7

/-- The one word of a mnemonic: RSV zero, OP in bits 3:0 (30_encoding.md R90, R91). -/
def encode (i : Instr) : Word := 0#28 ++ opcode i

/-- The host's question about an opcode-table word: the bits above `nbits` are 0, and a command is
exactly one word, so a longer row or number is no command (log 13). -/
def decodeTableWord (nbits w : Nat) : Option Instr :=
  if nbits ≤ 32 ∧ w < 2 ^ 32 then
    match decode (BitVec.ofNat 32 w) with
    | .ok i => some i
    | .error _ => none
  else none

end Sys2Proof
end

