-- ==== Sys2Proof/Machine/HostBus.lean ====
section
/-! DEFINITION. The host bus: which accesses are legal, what a read returns, what a write does (20_memory.md R61 to R72; 42_control.md R197 to R199). -/

namespace Sys2Proof.Machine

/-- The legal accesses: 32-bit and 4-byte aligned below 0x400, 8-bit from 0x400 up (20_memory.md R64). -/
def legalAccess (w : BusWidth) (a : WinAddr) : Bool :=
  if a.toNat < 0x400 then decide (w = .w32 ∧ a.toNat % 4 = 0) else decide (w = .w8)

/-- What stands at a window address (20_memory.md R61). -/
inductive Place where
  | reg (r : Reg)
  | byte (b : Buf) (i : Nat)
  | reserved
  deriving DecidableEq, Repr

/-- The host bus address map (20_memory.md R61). -/
def placeOf (a : WinAddr) : Place :=
  if a.toNat < 0x400 then
    match Reg.ofOffset a.toNat with
    | some r => .reg r
    | none => .reserved
  else if a.toNat < 0x600 then .byte .ibuf (a.toNat - 0x400)
  else if a.toNat < 0x7F0 then .byte .nbuf (a.toNat - 0x600)
  else if a.toNat < 0x800 then .reserved
  else if a.toNat < 0xA00 then .byte .obuf (a.toNat - 0x800)
  else .reserved

/-- What a legal read returns: a register, a byte zero-extended, or 0 at a reserved address
(42_control.md R198; 20_memory.md R65). -/
def State.readPlace (s : State) : Place → Word
  | .reg r => s.readReg r
  | .byte b i => (s.buf b i).setWidth 32
  | .reserved => 0

/-- What a legal write does while BUSY = 0 (42_control.md R197): OBUF and reserved addresses ignore it
(20_memory.md R65, R66). A byte takes bits 7:0 of the data (log 12). -/
def State.writePlace (s : State) (v : Word) : Place → State
  | .reg r => s.writeReg v r
  | .byte .ibuf i => s.setBuf .ibuf i (v.extractLsb' 0 8)
  | .byte .nbuf i => s.setBuf .nbuf i (v.extractLsb' 0 8)
  | .byte .obuf _ => s
  | .reserved => s

/-- STATUS.BERR <- 1 (20_memory.md R64). -/
def State.setBerr (s : State) : State := { s with status := { s.status with berr := true } }

/-- STATUS.WERR <- 1 (20_memory.md R71). -/
def State.setWerr (s : State) : State := { s with status := { s.status with werr := true } }

/-- A host read: its data and the state after it. A refused one returns 0 and sets BERR; a legal one
changes nothing, whether BUSY or not (20_memory.md R64, R68; 42_control.md R198). -/
def State.busRead (s : State) (w : BusWidth) (a : WinAddr) : Word × State :=
  if legalAccess w a then (s.readPlace (placeOf a), s) else (0, s.setBerr)

/-- A host write. While BUSY = 1 it is discarded and sets WERR, and BERR too if it is refused. While
BUSY = 0 a refused one sets BERR only (20_memory.md R64, R71; 42_control.md R197, R199). -/
def State.busWrite (s : State) (w : BusWidth) (a : WinAddr) (v : Word) : State :=
  if s.status.busy then
    if legalAccess w a then s.setWerr else s.setWerr.setBerr
  else if legalAccess w a then s.writePlace v (placeOf a)
  else s.setBerr

/-- One host access, without the record of it. -/
def State.bus (s : State) : Access → Word × State
  | .read w a => s.busRead w a
  | .write w a v => (0, s.busWrite w a v)

/-- One host access, recorded in the trace (log 10). -/
def State.perform (s : State) (a : Access) : State :=
  let r := s.bus a
  { r.2 with env := { r.2.env with trace := ⟨a, r.1⟩ :: r.2.env.trace } }

end Sys2Proof.Machine
end

