-- ==== Sys2Proof/Machine/HostProgram.lean ====
section
/-! DEFINITION. The host's operations as bus accesses, the expansions of the pseudo-operations, the host's turn, and whose turn is next (30_encoding.md R100, R101; 20_memory.md R70). -/

namespace Sys2Proof.Machine

/-- The access of `wr REG, v` (30_encoding.md R100). -/
def accessWr (r : Reg) (v : Word) : Access := .write .w32 (BitVec.ofNat 12 r.offset) v
/-- The access of `rd REG` (30_encoding.md R100). -/
def accessRd (r : Reg) : Access := .read .w32 (BitVec.ofNat 12 r.offset)
/-- The access of `wrb BUF[i], b` (30_encoding.md R100). DESIGN CHOICE (log 9): R100 gives an index outside
the buffer no meaning; the model goes to `base + i` modulo 4096, the width of a window address. -/
def accessWrb (b : Buf) (i : Nat) (v : Byte) : Access := .write .w8 (BitVec.ofNat 12 (b.base + i)) (v.setWidth 32)
/-- The access of `rdb BUF[i]` (30_encoding.md R100). DESIGN CHOICE (log 9): an index outside the buffer
wraps as in `accessWrb`. -/
def accessRdb (b : Buf) (i : Nat) : Access := .read .w8 (BitVec.ofNat 12 (b.base + i))
/-- The access of `cmd M`: the word of M written to CMD (30_encoding.md R100). -/
def accessCmd (m : Instr) : Access := accessWr .cmd (encode m)

/-- The window offset of an access. -/
def Access.addr : Access → WinAddr
  | .read _ a => a
  | .write _ a _ => a

/-- The address on the bus, for a window at `base` (DNSHQ_BASE, 93_implementation_defined.md P2). -/
def Access.busAddr (base : Nat) (a : Access) : Nat := base + a.addr.toNat

/-! ### Assembling (30_encoding.md R101) -/

/-- A line without a label. -/
def bare (op : HostOp) : Line := ⟨[], op⟩

/-- `wr CTRL, ie + 2*hdr + 4*lbl + 8*strict`. -/
def setmodeWord (ie hdr lbl strict : Nat) : Word := BitVec.ofNat 32 (ie + 2 * hdr + 4 * lbl + 8 * strict)

/-- `L: rd STATUS` then `bnz STATUS.BUSY, L`, with L the fresh label of source line `n`. -/
def expandWait (n : Nat) : List Line :=
  [⟨[.fresh n], .rd .status⟩, bare (.bnz .busy (.fresh n))]

/-- `wrb IBUF[i], b` for the bytes of a `load`, from offset `i`. -/
def expandLoad : Nat → List Byte → List Line
  | _, [] => []
  | i, b :: bs => bare (.wrb .ibuf i b) :: expandLoad (i + 1) bs

/-- The expansion of the operation at source line `n`. -/
def expandOp (n : Nat) : SrcOp → List Line
  | .core op => [bare op]
  | .wait => expandWait n
  | .run m => bare (.cmd m) :: expandWait n
  | .load bs => expandLoad 0 bs ++ [bare (.wr .inLen (BitVec.ofNat 32 bs.length))]
  | .ack => [bare (.wr .status 0x0000_0002)]
  | .setmode ie hdr lbl strict => [bare (.wr .ctrl (setmodeWord ie hdr lbl strict))]

/-- A line's own label goes before the first line of its expansion. -/
def attachLabel : Option Nat → List Line → List Line
  | some l, ln :: rest => ⟨.named l :: ln.labels, ln.op⟩ :: rest
  | _, lns => lns

/-- The host program of a source text whose first line is number `n`. -/
def assembleFrom : Nat → List SrcLine → List Line
  | _, [] => []
  | n, l :: ls => attachLabel l.name (expandOp n l.op) ++ assembleFrom (n + 1) ls

/-- The host program of a source text. -/
def assemble (src : List SrcLine) : List Line := assembleFrom 0 src

/-! ### The host's turn -/

/-- The line a label stands before, the first if there were several (log 9). -/
def findLabel : List Line → Label → Nat → Option Nat
  | [], _, _ => none
  | ln :: rest, l, n => if ln.labels.contains l then some n else findLabel rest l (n + 1)

/-- "the value last read from REG" (30_encoding.md R100): the newest 32-bit read of it in the trace. -/
def lastRead (r : Reg) : List BusRecord → Option Word
  | [] => none
  | b :: rest => if b.access = accessRd r then some b.data else lastRead r rest

/-- The value `bnz` tests. A register the host never read gives a free value (log 9). -/
def State.seen (s : State) (r : Reg) : Word := (lastRead r s.env.trace).getD (Config.freeHostValue r.offset)

/-- The accesses a `fetch` makes after its `rd OUT_LEN` returned `n` (30_encoding.md R101). -/
def fetchReads (n : Nat) : List Access := (List.range n).map (accessRdb .obuf)

/-- The host moves on to line `n`. -/
def State.goto (s : State) (n : Nat) : State := { s with env := { s.env with pc := n } }

/-- The host owes these accesses before its next line. -/
def State.owe (s : State) (as : List Access) : State := { s with env := { s.env with pending := as } }

/-- One operation of the host's program, at line `n` (30_encoding.md R100). -/
def hostLine (s : State) (n : Nat) : HostOp → Host.Outcome State Fault Refusal
  | .wr r v => .next ((s.perform (accessWr r v)).goto (n + 1))
  | .rd r => .next ((s.perform (accessRd r)).goto (n + 1))
  | .wrb b i v => .next ((s.perform (accessWrb b i v)).goto (n + 1))
  | .rdb b i => .next ((s.perform (accessRdb b i)).goto (n + 1))
  | .cmd m => .next ((s.perform (accessCmd m)).goto (n + 1))
  | .bnz f l =>
    if f.get (s.seen f.reg) = 0 then .next (s.goto (n + 1))
    else match findLabel s.env.program l 0 with
      | some k => .next (s.goto k)
      | none => .fault .undefinedLabel
  | .fetch =>
    let t := s.perform (accessRd .outLen)
    .next ((t.owe (fetchReads (t.seen .outLen).toNat)).goto (n + 1))

/-- The host's turn: an access it still owes, else the next line of its program, else nothing. -/
def hostTurn (s : State) : Host.Outcome State Fault Refusal :=
  match s.env.pending with
  | a :: rest => .next ((s.owe rest).perform a)
  | [] =>
    match s.env.program[s.env.pc]? with
    | some ln => hostLine s s.env.pc ln.op
    | none => .next s

/-- The host has an operation left. -/
def State.hostHasWork (s : State) : Bool := !s.env.pending.isEmpty || decide (s.env.pc < s.env.program.length)

/-! ### Whose turn is next -/

/-- The next turn, taken off the schedule. When the schedule is over a latched command executes, and
otherwise the host goes on (log 4: a finite schedule, so that an enabled engine step is taken,
70_reset_and_hazards.md R290). -/
def takeTurn (s : State) : Turn × State :=
  match s.env.sched with
  | t :: rest => (t, { s with env := { s.env with sched := rest } })
  | [] => if s.status.busy then (.engine, s) else if s.hostHasWork then (.hostOp, s) else (.engine, s)

/-- The command word the engine executes is the latch (42_control.md R190). -/
def fetch (s : State) : Except DecodeError Instr := decode s.lastCmd

/-- The latch loaded as an accepted command's, with the engine to move next. -/
def State.latchNext (s : State) (w : Word) : State :=
  { s.accept w with env := { s.env with sched := .engine :: s.env.sched } }

end Sys2Proof.Machine
end

