-- ==== Sys2Proof/Machine/Engine.lean ====
section
/-! DEFINITION. The engine's turn, and the step of each turn (20_memory.md R69, R70). -/

namespace Sys2Proof.Machine

/-- The engine's turn: with BUSY = 1 it decodes and executes the latched word, an illegal word too;
with BUSY = 0 it has no step to take and the state stays (42_control.md R190, R196; 60_exceptions.md R249). -/
def engineTurn (s : State) : Host.Outcome State Fault Refusal :=
  if s.status.busy then
    match fetch s with
    | .ok i => exec i s
    | .error _ => execIllegal s
  else .next s

/-- The step of one turn. -/
def turnStep (t : Turn) (s : State) : Host.Outcome State Fault Refusal :=
  match t with
  | .engine => engineTurn s
  | .access a => .next (s.perform a)
  | .hostOp => hostTurn s
  | .rst => .next s.rst

end Sys2Proof.Machine
end

