-- ==== Sys2Proof/Machine/Step.lean ====
section
/-! DEFINITION. One step: the engine's, the host's, or the reset input's turn (20_memory.md R69, R70). -/

namespace Sys2Proof.Machine

/-- One step of the machine. -/
def step (s : State) : Host.Outcome State Fault Refusal := turnStep (takeTurn s).1 (takeTurn s).2

/-- `s` with the command word `w` accepted and the engine to move next, so that the next step executes
it (log 7). -/
def State.withFetchWord (s : State) (_nbits w : Nat) : State := s.latchNext (BitVec.ofNat 32 w)

end Sys2Proof.Machine
end

