-- ==== Sys2Proof/Machine/Platform.lean ====
section
/-! DEFINITION. Several instances on a platform, their windows and their `irq` lines (60_exceptions.md R239, R247; 93_implementation_defined.md P2 to P4; log 11). -/

namespace Sys2Proof.Machine

/-- One instance with the platform's two parameters for it: `DNSHQ_BASE` and `DNSHQ_IRQ_ROUTE`. -/
structure Placed where
  base : Nat
  irqRoute : Nat
  block : State
  deriving DecidableEq, Repr

/-- The instances of a platform (93_implementation_defined.md P4). DESIGN CHOICE, unsafe (log 2, log 11): two
instances at one epoch hold the same free bytes. -/
abbrev Platform := List Placed

/-- A window is 4 KiB at a 4 KiB aligned base (93_implementation_defined.md P2; 20_memory.md R60). -/
def Placed.wf (p : Placed) : Bool := decide (p.base % 4096 = 0)

/-- The instance whose window holds a bus address, and the offset in it. -/
def Platform.route (addr : Nat) : Platform → Nat → Option (Nat × WinAddr)
  | [], _ => none
  | p :: rest, k =>
    if p.base ≤ addr ∧ addr < p.base + 4096 then some (k, BitVec.ofNat 12 (addr - p.base))
    else Platform.route addr rest (k + 1)

/-- One step of instance `k`. The instances share no state (60_exceptions.md R247). -/
def Platform.stepAt (ps : Platform) (k : Nat) : Host.Outcome Platform Fault Refusal :=
  match ps[k]? with
  | none => .next ps
  | some p =>
    match step p.block with
    | .next t => .next (ps.set k { p with block := t })
    | .fault r => .fault r
    | .refused r => .refused r

/-- The platform inputs at which an `irq` is raised. -/
def Platform.raised (ps : Platform) : List Nat := (ps.filter (fun p => p.block.irq)).map Placed.irqRoute

end Sys2Proof.Machine
end

