-- ==== Sys2Proof/Safety.lean ====
section
/-! DEFINITION. The terms claims use: the invariant of 10_state.md R44, the label grammar of 30_encoding.md R97, a host that keeps its duties, the response, and the end of a run. -/

namespace Sys2Proof.Machine

/-- The invariants of 10_state.md R44 (a) to (f), the ranges of 10_state.md R27, R35, R36, R37 and
60_exceptions.md R231, R233, R234, and the canonical form of memory. -/
structure Inv (s : State) : Prop where
  /-- R44(a). -/
  noResponse : s.status.respValid = false → s.outLen = 0
  /-- R44(b). -/
  response : s.status.respValid = true → s.outLen.toNat = 12 + s.qOutLen.toNat
  /-- R44(c). -/
  qOutLen : s.qOutLen = 0 ∨ (4 ≤ s.qOutLen.toNat ∧ s.qOutLen.toNat ≤ 500)
  /-- R44(d). -/
  nameLen : s.qName.nameLen.toNat ≤ 496
  /-- R44(e). -/
  busyDone : s.status.busy = true → s.status.done = false
  /-- R44(f). -/
  errStage : s.status.err = 0 ↔ s.errInfo.stage = 0
  /-- Codes 6-15 are never written (60_exceptions.md R231; 93_implementation_defined.md V3). -/
  errCode : s.status.err.toNat ≤ 5
  /-- Stages 4-7 are never written (10_state.md R27; 93_implementation_defined.md V4). -/
  stage : s.errInfo.stage.toNat ≤ 3
  /-- OFFSET is at most 512 (60_exceptions.md R234). -/
  offset : s.errInfo.offset.toNat ≤ 512
  /-- NLABELS is 0 or from 1 to 247 (10_state.md R35). -/
  nLabels : s.qName.nLabels.toNat ≤ 247
  /-- Q_END is 0 or from 19 to 512 (10_state.md R37). -/
  qEnd : s.qEnd = 0 ∨ (19 ≤ s.qEnd.toNat ∧ s.qEnd.toNat ≤ 512)
  /-- The listed bytes are in rising order, and each is a byte of a buffer (20_memory.md R61). -/
  memWf : s.mem.wf = true

/-! ### The label chain -/

/-- A label of length `l` whose length byte is at `c` passes the checks of 41_question_codec.md R157 and,
with STRICT = 1, R162. -/
def LabelFits (s : State) (c l : Nat) : Prop :=
  c + 1 + l < s.len ∧ (s.strict = true → l < 0x40 ∧ (c - 12) + 1 + l + 1 ≤ 255)

/-- Walking the labels of lengths `ls` from cursor `c` ends at cursor `e`: the byte at each cursor is the
length, and the next cursor is past the label (41_question_codec.md R152, R155). -/
def Walked (s : State) : Nat → List Nat → Nat → Prop
  | c, [], e => e = c
  | c, l :: ls, e => s.lengthAt c = l ∧ 0 < l ∧ LabelFits s c l ∧ Walked s (c + 1 + l) ls e

/-- The datagram holds a question at offset 12 with labels of lengths `ls` and the terminator at `e`, by
the grammar of 30_encoding.md R97 and the bounds of 41_question_codec.md R153, R160. -/
structure HasQuestion (s : State) (ls : List Nat) (e : Nat) : Prop where
  notOversize : s.len ≤ 512
  labels : Walked s 12 ls e
  nonempty : ls ≠ []
  terminator : s.lengthAt e = 0
  two : s.twoLabel = true → ls.length = 2
  typeClass : e + 4 < s.len

/-! ### Two datagrams that agree below LEN -/

/-- The window addresses of IBUF bytes at or above LEN. -/
def beyondLen (s : State) (a : Nat) : Prop := 0x400 + s.len ≤ a ∧ a < 0x600

/-- The states agree in everything but the IBUF bytes at or above IN_LEN.LEN (20_memory.md R78). -/
def AgreeBelowLen (s t : State) : Prop :=
  t = { s with mem := t.mem, epoch := t.epoch } ∧ ∀ a, ¬ beyondLen s a → t.byteAt a = s.byteAt a

/-! ### The host's duties and what it observes -/

/-- Every IBUF byte below LEN is written (70_reset_and_hazards.md R274; 93_implementation_defined.md U1). -/
def State.loaded (s : State) : Bool := (List.range s.len).all (fun i => (s.mem.find (0x400 + i)).isSome)

/-- No host write was lost and no access was refused (92_eei_decisions.md D21: claims take WERR = 0 as a premise). -/
def State.hostClean (s : State) : Bool := !s.status.werr && !s.status.berr

/-- The response: OBUF[0..OUT_LEN-1] (10_state.md R41). -/
def State.responseBytes (s : State) : List Byte := (List.range s.outLen.toNat).map (s.buf .obuf)

/-- A write of a command word to CMD. -/
def Access.isCommand : Access → Bool
  | .read _ _ => false
  | .write w a _ => decide (w = .w32 ∧ a = 0x008)

/-- A write, to any address. -/
def Access.isWrite : Access → Bool
  | .read _ _ => false
  | .write _ _ _ => true

/-- An access the bus does not refuse (20_memory.md R64). -/
def Access.isLegal : Access → Bool
  | .read w a => legalAccess w a
  | .write w a _ => legalAccess w a

/-- "no command was issued" is read off the trace (70_reset_and_hazards.md R284). -/
def State.issuedCommand (s : State) : Bool := s.env.trace.any (fun b => b.access.isCommand)

/-- The end of a run of a host program (70_reset_and_hazards.md R284). -/
def State.runEnded (s : State) : Bool :=
  !s.hostHasWork && !s.status.busy && (s.status.done || !s.issuedCommand)

/-- The final observation: the registers, the response and `irq` (70_reset_and_hazards.md R284;
93_implementation_defined.md U5 leaves out the rest). -/
def State.observation (s : State) : List Word × List Byte × Bool :=
  ([Reg.ctrl, .status, .cmd, .errInfo, .inLen, .outLen, .polQdAn, .polNsAr, .hId, .hFlags, .hQdAn, .hNsAr,
    .qTypeClass, .qName, .qOutLen, .qEnd].map s.readReg, s.responseBytes, s.irq)

/-- The block's registers are the same: everything but the buffers and the model's own fields. -/
def SameRegisters (s t : State) : Prop := t = { s with mem := t.mem, epoch := t.epoch, env := t.env }

/-- The trace with one more access, whose read returned `d`. -/
def Env.saw (e : Env) (a : Access) (d : Word) : Env := { e with trace := ⟨a, d⟩ :: e.trace }

/-- The step in which the host makes access `a` next, the rest of the schedule being `s`'s. -/
def accessStep (s : State) (a : Access) : Host.Outcome State Fault Refusal :=
  step { s with env := { s.env with sched := .access a :: s.env.sched } }

/-- The step in which the engine moves next. -/
def engineStep (s : State) : Host.Outcome State Fault Refusal :=
  step { s with env := { s.env with sched := .engine :: s.env.sched } }

/-- The step in which the host runs the next operation of its program. -/
def hostStep (s : State) : Host.Outcome State Fault Refusal :=
  step { s with env := { s.env with sched := .hostOp :: s.env.sched } }

/-- The step in which `rst` is asserted. -/
def rstStep (s : State) : Host.Outcome State Fault Refusal :=
  step { s with env := { s.env with sched := .rst :: s.env.sched } }

/-- The status of a completion with error code `c` (42_control.md R191). -/
def Status.completed (t : Status) (c : BitVec 4) : Status := { t with busy := false, done := true, err := c }

/-- The status of a completion, with error code `c`, of a command that leaves no response
(42_control.md R191, R201). -/
def Status.completedNoResponse (t : Status) (c : BitVec 4) : Status :=
  { t with busy := false, done := true, respValid := false, err := c }

/-- The state after a command that fails with code `c`, stage `g` and offset `o` and writes no result:
the error record of 60_exceptions.md R236, and nothing else. -/
def FailedWith (s : State) (c : BitVec 4) (g : BitVec 3) (o : Nat) : State :=
  { s with outLen := 0, errInfo := ⟨g, BitVec.ofNat 10 o⟩, status := s.status.completedNoResponse c }

/-- The cursor positions of a walk from `c` over labels of lengths `ls` (41_question_codec.md R152). -/
def cursors : Nat → List Nat → List Nat
  | c, [] => [c]
  | c, l :: ls => c :: cursors (c + 1 + l) ls

/-- Every byte outside `[lo, lo + n)` of the window reads as before. -/
def SameBytesOutside (s t : State) (lo n : Nat) : Prop :=
  ∀ a, ¬ (lo ≤ a ∧ a < lo + n) → t.byteAt a = s.byteAt a

/-- Every byte of the window reads as before. -/
def SameBytes (s t : State) : Prop := ∀ a, t.byteAt a = s.byteAt a

end Sys2Proof.Machine
end

