-- ==== Sys2Proof/Certificates/Slice0/Obligations.lean ====
section
/-! DEFINITION. The statements for the provers. `accessStep`, `engineStep`, `hostStep` and `rstStep` are `step` with that agent's turn next in the schedule (the model's own, log 4), and `Env.saw` is the model's own record of an access and of the data a read returned (log 10). -/

open Sys2Proof Sys2Proof.Machine

/-! ### Reset, words, steps -/

/-- 70_reset_and_hazards.md R271. -/
def Obligations.ResetRegistersHoldTheirValues : Prop :=
  (∀ r : Reg, State.reset.readReg r = if r = .polQdAn then 0x0000_0001 else 0x0000_0000) ∧
  State.reset.lastCmd = 0x0000_0000 ∧ State.reset.status.busy = false ∧ State.reset.irq = false

/-- 70_reset_and_hazards.md R270: from any state, every register takes its reset value, the latched
command never executes, and CLEAR resets neither CTRL nor the policy registers. -/
def Obligations.RstGivesEveryRegisterItsResetValue : Prop :=
  ∀ s : State, ∃ t, rstStep s = .next t ∧
    SameRegisters State.reset t ∧ (∀ r : Reg, t.readReg r = State.reset.readReg r) ∧
    t.status.busy = false ∧ t.irq = false ∧
    t.polQdcount = 1 ∧ t.polAncount = 0 ∧ t.polNscount = 0 ∧ t.polArcount = 0 ∧
    t.scopeZero = false ∧ t.twoLabel = false ∧ t.strict = false ∧ t.ctrl.ie = false ∧
    engineStep t = .next t ∧
    ∃ u, exec .clear s = .next u ∧ u.ctrl = s.ctrl ∧ u.polQdAn = s.polQdAn ∧ u.polNsAr = s.polNsAr

/-- 30_encoding.md R91, R93 (which words are illegal). -/
def Obligations.EachMnemonicHasExactlyOneWord : Prop :=
  ∀ w : Word,
    (∀ i : Instr, decode w = .ok i ↔
      w = match i with
        | .nop => 0x0000_0000 | .hdrDecode => 0x0000_0001 | .hdrEncode => 0x0000_0002
        | .qDecode => 0x0000_0003 | .qEncode => 0x0000_0004 | .compose => 0x0000_0005
        | .process => 0x0000_0006 | .clear => 0x0000_0007) ∧
    ((∃ e, decode w = .error e) ↔ (w >>> 4 ≠ 0 ∨ 8 ≤ (w &&& 0xF).toNat))

/-- 30_encoding.md section 1: decoding an encoded well-formed command gives it back. -/
def Obligations.DecodeOfEncodeIsTheCommand : Prop :=
  ∀ i : Instr, i.wf = true → decode (encode i) = .ok i

/-- 30_encoding.md R90, R91: words written out bit by bit, and words that are refused by name. -/
def Obligations.WrittenOutWordsDecode : Prop :=
  decode 0b0000_0000_0000_0000_0000_0000_0000_0001 = .ok .hdrDecode ∧
  decode 0b0000_0000_0000_0000_0000_0000_0000_0010 = .ok .hdrEncode ∧
  decode 0b0000_0000_0000_0000_0000_0000_0000_0011 = .ok .qDecode ∧
  decode 0b0000_0000_0000_0000_0000_0000_0000_0110 = .ok .process ∧
  decode 0b0000_0000_0000_0000_0000_0000_0000_1000 = .error .reservedOpcode ∧
  decode 0b0000_0000_0000_0000_0000_0000_0001_0001 = .error .reservedBits ∧
  decodeTableWord 32 5 = some .compose

/-- 42_control.md R190: with BUSY = 1 the engine's step executes the latched word against the state at
that moment. It moves when the schedule says so, and when the schedule is over. -/
def Obligations.StepExecutesTheLatchedCommand : Prop :=
  ∀ (s : State) (i : Instr), s.status.busy = true → decode s.lastCmd = .ok i →
    engineStep s = exec i s ∧ (s.env.sched = [] → step s = exec i s)

/-- 42_control.md R196: an illegal latched word. -/
def Obligations.IllegalWordCompletesWithCodeFive : Prop :=
  ∀ s : State, s.status.busy = true → (s.lastCmd >>> 4 ≠ 0 ∨ 8 ≤ (s.lastCmd &&& 0xF).toNat) →
    engineStep s = .next (FailedWith s 5 1 0)

/-- 10_state.md R26: a write to CMD is a command while BUSY = 0 and is lost while BUSY = 1; a read gives
the last word accepted. -/
def Obligations.CmdWriteIsAcceptedOrLost : Prop :=
  (∀ (s : State) (w : Word),
    (s.status.busy = false → accessStep s (.write .w32 0x008 w) =
      .next { s with
        lastCmd := w
        status := { s.status with busy := true, done := false }
        env := s.env.saw (.write .w32 0x008 w) 0 }) ∧
    (s.status.busy = true → accessStep s (.write .w32 0x008 w) =
      .next { s with
        status := { s.status with werr := true }
        env := s.env.saw (.write .w32 0x008 w) 0 }) ∧
    accessStep s (.read .w32 0x008) = .next { s with env := s.env.saw (.read .w32 0x008) s.lastCmd }) ∧
  State.reset.lastCmd = 0x0000_0000

/-- 42_control.md R199, 20_memory.md R71: whatever accesses the host makes while a command is latched,
nothing changes but WERR, BERR and the model's own trace and schedule, and the command then runs on that
state. The host's program, its place in it and the accesses it owes stay. -/
def Obligations.AccessesDuringBusyLeaveTheCommandItsInput : Prop :=
  ∀ (s : State) (l : List Access), s.status.busy = true →
    ∃ t : State,
      core.run l.length { s with env := { s.env with sched := l.map .access } } = .next t ∧
      t = { s with
        status := { s.status with
          werr := s.status.werr || l.any Access.isWrite
          berr := s.status.berr || l.any (fun a => !a.isLegal) }
        env := { s.env with sched := [], trace := t.env.trace } } ∧
      core.run (l.length + 1) { s with env := { s.env with sched := l.map .access } } = engineTurn t

/-- 60_exceptions.md R249: idle with nothing for the host to do, the state stays. -/
def Obligations.IdleBlockKeepsItsState : Prop :=
  ∀ s : State, s.status.busy = false → s.env.sched = [] → s.hostHasWork = false →
    step s = .next s ∧ engineStep s = .next s

/-- 60_exceptions.md R237: every step goes on, unless the host's program branches to a label it does not
declare (the model's own stop, log 9); with a well-formed program every step goes on. -/
def Obligations.StepGoesOnWithAWellFormedProgram : Prop :=
  ∀ s : State,
    (programWf s.env.program = true → ∃ t, step s = .next t ∧ t.env.program = s.env.program) ∧
    ((∃ t, step s = .next t) ∨ step s = .fault .undefinedLabel)

/-! ### The host bus -/

/-- 20_memory.md R64. -/
def Obligations.RefusedAccessSetsBerrAndNothingElse : Prop :=
  ∀ (s : State) (w : BusWidth) (a : WinAddr) (v : Word),
    (¬ ((a.toNat < 0x400 ∧ w = .w32 ∧ a.toNat % 4 = 0) ∨ (0x400 ≤ a.toNat ∧ w = .w8)) →
      accessStep s (.read w a) =
        .next { s with status := { s.status with berr := true }, env := s.env.saw (.read w a) 0 } ∧
      accessStep s (.write w a v) =
        .next { s with
          status := { s.status with berr := true, werr := s.status.werr || s.status.busy }
          env := s.env.saw (.write w a v) 0 }) ∧
    ((a.toNat < 0x400 ∧ w = .w32 ∧ a.toNat % 4 = 0) ∨ (0x400 ≤ a.toNat ∧ w = .w8) →
      (∃ d, accessStep s (.read w a) = .next { s with env := s.env.saw (.read w a) d }) ∧
      ∃ t, accessStep s (.write w a v) = .next t ∧ (t.status.berr = true → s.status.berr = true))

/-- 42_control.md R198: legal reads, BUSY or not, change nothing and return the current value, reserved
bits 0. -/
def Obligations.LegalReadReturnsTheCurrentValue : Prop :=
  ∀ s : State,
    (∀ r : Reg, accessStep s (.read .w32 (BitVec.ofNat 12 r.offset)) =
      .next { s with env := s.env.saw (.read .w32 (BitVec.ofNat 12 r.offset)) (s.readReg r) }) ∧
    (s.readReg .ctrl).toNat =
      s.ctrl.ie.toNat + 2 * s.ctrl.hdrMode.toNat + 4 * s.ctrl.lblMode.toNat + 8 * s.ctrl.strict.toNat ∧
    (s.readReg .status).toNat =
      s.status.busy.toNat + 2 * s.status.done.toNat + 4 * s.status.respValid.toNat + 8 * s.status.werr.toNat
        + 16 * s.status.berr.toNat + 256 * s.status.err.toNat ∧
    s.readReg .cmd = s.lastCmd ∧
    (s.readReg .errInfo).toNat = s.errInfo.stage.toNat + 65536 * s.errInfo.offset.toNat ∧
    (s.readReg .inLen).toNat = s.inLen.toNat ∧ (s.readReg .outLen).toNat = s.outLen.toNat ∧
    s.readReg .polQdAn = s.polQdAn ∧ s.readReg .polNsAr = s.polNsAr ∧
    (s.readReg .hId).toNat = s.hId.toNat ∧ (s.readReg .hFlags).toNat = s.hFlags.toNat ∧
    s.readReg .hQdAn = s.hQdAn ∧ s.readReg .hNsAr = s.hNsAr ∧ s.readReg .qTypeClass = s.qTypeClass ∧
    (s.readReg .qName).toNat = s.qName.nameLen.toNat + 65536 * s.qName.nLabels.toNat ∧
    (s.readReg .qOutLen).toNat = s.qOutLen.toNat ∧ (s.readReg .qEnd).toNat = s.qEnd.toNat ∧
    (∀ a : WinAddr, isBufAddr a.toNat = true → ∃ d : Word, d.toNat = (s.byteAt a.toNat).toNat ∧
      accessStep s (.read .w8 a) = .next { s with env := s.env.saw (.read .w8 a) d }) ∧
    (∀ a : WinAddr, 0x400 ≤ a.toNat → isBufAddr a.toNat = false →
      accessStep s (.read .w8 a) = .next { s with env := s.env.saw (.read .w8 a) 0 })

/-- 20_memory.md R65: reserved addresses. -/
def Obligations.ReservedAddressesReadZeroAndIgnoreWrites : Prop :=
  ∀ (s : State) (a : WinAddr) (v : Word) (w : BusWidth),
    ((w = .w32 ∧ a.toNat % 4 = 0 ∧ 0x040 ≤ a.toNat ∧ a.toNat < 0x400) ∨
     (w = .w8 ∧ ((0x7F0 ≤ a.toNat ∧ a.toNat < 0x800) ∨ 0xA00 ≤ a.toNat))) →
    accessStep s (.read w a) = .next { s with env := s.env.saw (.read w a) 0 } ∧
    accessStep s (.write w a v) =
      .next { s with
        status := { s.status with werr := s.status.werr || s.status.busy }
        env := s.env.saw (.write w a v) 0 }

/-- 42_control.md R197: what a legal write stores while BUSY = 0, register by register and byte by byte.
That an 8-bit write takes bits 7:0 of its data, whatever bits 31:8 are, is the model's (log 12). -/
def Obligations.LegalWriteStoresTheWritableFields : Prop :=
  ∀ (s : State) (v : Word), s.status.busy = false →
    let written := fun (a : WinAddr) (t : State) =>
      accessStep s (.write .w32 a v) = .next { t with env := s.env.saw (.write .w32 a v) 0 }
    written 0x000 { s with ctrl := ⟨v.getLsbD 0, v.getLsbD 1, v.getLsbD 2, v.getLsbD 3⟩ } ∧
    written 0x004 { s with status := { s.status with
      done := s.status.done && !v.getLsbD 1
      werr := s.status.werr && !v.getLsbD 3
      berr := s.status.berr && !v.getLsbD 4 } } ∧
    written 0x008 { s with lastCmd := v, status := { s.status with busy := true, done := false } } ∧
    written 0x00C s ∧
    written 0x010 { s with inLen := BitVec.ofNat 10 (v.toNat % 1024) } ∧
    written 0x014 s ∧
    written 0x018 { s with polQdAn := v } ∧
    written 0x01C { s with polNsAr := v } ∧
    written 0x020 { s with hId := BitVec.ofNat 16 (v.toNat % 65536) } ∧
    written 0x024 { s with hFlags := BitVec.ofNat 16 (v.toNat % 65536) } ∧
    written 0x028 { s with hQdAn := v } ∧
    written 0x02C { s with hNsAr := v } ∧
    written 0x030 { s with qTypeClass := v } ∧
    (v.toNat % 512 ≤ 496 →
      written 0x034 { s with qName := { s.qName with nameLen := BitVec.ofNat 9 (v.toNat % 512) } }) ∧
    (496 < v.toNat % 512 → written 0x034 s) ∧
    written 0x038 s ∧
    written 0x03C s ∧
    (∀ a : WinAddr, a.toNat % 4 = 0 → 0x040 ≤ a.toNat → a.toNat < 0x400 → written a s) ∧
    (∀ a : WinAddr, ((0x400 ≤ a.toNat ∧ a.toNat < 0x600) ∨ (0x600 ≤ a.toNat ∧ a.toNat < 0x7F0)) →
      ∃ t, accessStep s (.write .w8 a v) = .next t ∧
        t = { s with mem := t.mem, env := s.env.saw (.write .w8 a v) 0 } ∧
        (t.byteAt a.toNat).toNat = v.toNat % 256 ∧ SameBytesOutside s t a.toNat 1) ∧
    (∀ a : WinAddr, (0x7F0 ≤ a.toNat) →
      accessStep s (.write .w8 a v) = .next { s with env := s.env.saw (.write .w8 a v) 0 })

/-- 42_control.md R200: NAME_LEN is WARL, so it is at most 496 at reset and after every step from a state
where it is, and Q_ENCODE never writes past OBUF[511]. -/
def Obligations.NameLenIsWarl : Prop :=
  (∀ (s : State) (v : Word), s.status.busy = false →
    ∃ t, accessStep s (.write .w32 0x034 v) = .next t ∧
      (v.toNat % 512 ≤ 496 → t.qName.nameLen.toNat = v.toNat % 512) ∧
      (496 < v.toNat % 512 → t.qName.nameLen = s.qName.nameLen) ∧
      t.qName.nLabels = s.qName.nLabels) ∧
  State.reset.qName.nameLen.toNat ≤ 496 ∧
  (∀ s t : State, s.qName.nameLen.toNat ≤ 496 → step s = .next t → t.qName.nameLen.toNat ≤ 496) ∧
  (∀ s : State, s.qName.nameLen.toNat ≤ 496 →
    ∃ t, exec .qEncode s = .next t ∧ ∀ a, 0xA00 ≤ a → t.byteAt a = s.byteAt a)

/-- 10_state.md R42, 60_exceptions.md R239: `irq` rises at a completion with IE = 1, or when IE is set
while DONE = 1, and falls when DONE or IE is cleared or a command is accepted. -/
def Obligations.IrqFollowsDoneAndIe : Prop :=
  (∀ (i : Instr) (s : State), ∃ t, exec i s = .next t ∧ t.irq = s.ctrl.ie) ∧
  (∀ (s : State) (v : Word), s.status.busy = false →
    (∃ t, accessStep s (.write .w32 0x000 v) = .next t ∧ t.irq = (v.getLsbD 0 && s.status.done)) ∧
    (∃ t, accessStep s (.write .w32 0x004 v) = .next t ∧
      t.irq = (s.ctrl.ie && s.status.done && !v.getLsbD 1)) ∧
    (∃ t, accessStep s (.write .w32 0x008 v) = .next t ∧ t.irq = false)) ∧
  (∀ s : State, s.irq = true ↔ (s.ctrl.ie = true ∧ s.status.done = true))

/-! ### NOP, COMPOSE, CLEAR -/

/-- 42_control.md R192. -/
def Obligations.NopOnlyCompletes : Prop :=
  encode .nop = 0x0000_0000 ∧
  ∀ s : State, exec .nop s = .next { s with errInfo := ⟨0, 0⟩, status := s.status.completed 0 }

/-- 42_control.md R193. Q_OUT_LEN is at most 500 in every state that meets the invariant (10_state.md R44(c)). -/
def Obligations.ComposeMarksTheResponse : Prop :=
  encode .compose = 0x0000_0005 ∧
  (∀ s : State, ∃ t, exec .compose s = .next t ∧
    t = { s with
      outLen := 12 + s.qOutLen
      errInfo := ⟨0, 0⟩
      status := { s.status.completed 0 with respValid := true } } ∧
    (s.qOutLen.toNat ≤ 500 →
      t.outLen.toNat = 12 + s.qOutLen.toNat ∧ t.outLen.toNat ≤ 512 ∧
      t.responseBytes = s.bytes .obuf 0 12 ++ s.bytes .obuf 12 s.qOutLen.toNat)) ∧
  (∃ t, exec .compose State.reset = .next t ∧ t.outLen.toNat = 12)

/-- 42_control.md R195. -/
def Obligations.ClearZeroesTheResults : Prop :=
  encode .clear = 0x0000_0007 ∧
  ∀ s : State, exec .clear s = .next { s with
    hId := 0, hFlags := 0, hQdAn := 0, hNsAr := 0
    qTypeClass := 0, qName := ⟨0, 0⟩, qOutLen := 0, qEnd := 0
    outLen := 0, errInfo := ⟨0, 0⟩, status := s.status.completedNoResponse 0 }

/-! ### The Header Codec -/

/-- 20_memory.md R62: the byte at the lower offset is the most significant, when read and when written. -/
def Obligations.WireFieldsAreBigEndian : Prop :=
  (∀ (s : State) (b : Buf) (a : Nat),
    (s.memRead2 b a).toNat = 256 * (s.buf b a).toNat + (s.buf b (a + 1)).toNat) ∧
  (∀ (s : State) (b : Buf) (a : Nat) (v : Half),
    ((s.putBytes b a (wireBytes v)).buf b a).toNat = v.toNat / 256 ∧
    ((s.putBytes b a (wireBytes v)).buf b (a + 1)).toNat = v.toNat % 256)

/-- 10_state.md R32: the fields of H_FLAGS at their bit positions make up the image. -/
def Obligations.FlagFieldsMakeUpTheImage : Prop :=
  ∀ f : Half, f.toNat =
    32768 * (flagQr f).toNat + 2048 * (flagOpcode f).toNat + 1024 * (flagAa f).toNat + 512 * (flagTc f).toNat
      + 256 * (flagRd f).toNat + 128 * (flagRa f).toNat + 16 * (flagZ f).toNat + (flagRcode f).toNat

/-- 40_header_codec.md R121, R122: every case of HDR_DECODE, and nothing else changes. -/
def Obligations.HdrDecodeFollowsItsRule : Prop :=
  encode .hdrDecode = 0x0000_0001 ∧
  ∀ s : State,
    (512 < s.len → exec .hdrDecode s = .next (FailedWith s 4 1 0)) ∧
    (s.len < 12 → exec .hdrDecode s = .next (FailedWith s 1 2 s.len)) ∧
    (12 ≤ s.len → s.len ≤ 512 → s.scopeZero = false →
      exec .hdrDecode s = .next { s with
        hId := be16 (s.buf .ibuf 0) (s.buf .ibuf 1)
        hFlags := be16 (s.buf .ibuf 2) (s.buf .ibuf 3)
        hQdAn := be16 (s.buf .ibuf 6) (s.buf .ibuf 7) ++ be16 (s.buf .ibuf 4) (s.buf .ibuf 5)
        hNsAr := be16 (s.buf .ibuf 10) (s.buf .ibuf 11) ++ be16 (s.buf .ibuf 8) (s.buf .ibuf 9)
        outLen := 0, errInfo := ⟨0, 0⟩, status := s.status.completedNoResponse 0 }) ∧
    (12 ≤ s.len → s.len ≤ 512 → s.scopeZero = true →
      exec .hdrDecode s = .next { s with
        hId := be16 (s.buf .ibuf 0) (s.buf .ibuf 1)
        hFlags := be16 (s.buf .ibuf 2 &&& 0x80) 0
        hQdAn := (0 : Half) ++ s.polQdcount
        hNsAr := 0
        outLen := 0, errInfo := ⟨0, 0⟩, status := s.status.completedNoResponse 0 })

/-- 40_header_codec.md R123: the twelve bytes, the counts from the policy, and nothing else changes. -/
def Obligations.HdrEncodeWritesTheTwelveBytes : Prop :=
  encode .hdrEncode = 0x0000_0002 ∧
  ∀ s : State, ∃ t, exec .hdrEncode s = .next t ∧
    t = { s with
      mem := t.mem, outLen := 0, errInfo := ⟨0, 0⟩, status := s.status.completedNoResponse 0 } ∧
    t.bytes .obuf 0 12 =
      [hi8 s.hId, lo8 s.hId, hi8 s.hFlags, lo8 s.hFlags, hi8 s.polQdcount, lo8 s.polQdcount,
       hi8 s.polAncount, lo8 s.polAncount, hi8 s.polNscount, lo8 s.polNscount,
       hi8 s.polArcount, lo8 s.polArcount] ∧
    SameBytesOutside s t 0x800 12

/-- 40_header_codec.md R124: HDR_DECODE, then HDR_ENCODE in any later state whose H_ID, H_FLAGS and policy
are those HDR_DECODE left. -/
def Obligations.HeaderRoundTrip : Prop :=
  ∀ s : State, 12 ≤ s.len → s.len ≤ 512 →
    ∃ t, exec .hdrDecode s = .next t ∧ t.status.err = 0 ∧ ∀ v : State,
      v.hId = t.hId → v.hFlags = t.hFlags → v.polQdAn = t.polQdAn → v.polNsAr = t.polNsAr →
      ∃ u, exec .hdrEncode v = .next u ∧
      u.bytes .obuf 0 2 = s.bytes .ibuf 0 2 ∧
      (u.buf .obuf 2).getLsbD 7 = (s.buf .ibuf 2).getLsbD 7 ∧
      (s.scopeZero = false → u.bytes .obuf 2 2 = s.bytes .ibuf 2 2) ∧
      (s.scopeZero = true → u.bytes .obuf 2 2 = [s.buf .ibuf 2 &&& 0x80, 0x00]) ∧
      u.bytes .obuf 4 8 = wireBytes s.polQdcount ++ wireBytes s.polAncount ++ wireBytes s.polNscount
        ++ wireBytes s.polArcount

/-! ### The Question Codec -/

/-- 41_question_codec.md R153, R154: the length prechecks, then the empty domain, in both label modes and
whatever STRICT is. -/
def Obligations.QDecodeChecksLengthThenEmptyDomain : Prop :=
  ∀ s : State,
    (512 < s.len → exec .qDecode s = .next (FailedWith s 4 1 0)) ∧
    (s.len < 13 → exec .qDecode s = .next (FailedWith s 1 3 s.len)) ∧
    (13 ≤ s.len → s.len ≤ 512 → s.buf .ibuf 12 = 0x00 → exec .qDecode s = .next (FailedWith s 2 3 12))

/-- 30_encoding.md R97, 41_question_codec.md R155, R158: Q_DECODE succeeds on exactly the datagrams the
grammar of the mode describes. -/
def Obligations.QDecodeAcceptsExactlyTheGrammar : Prop :=
  ∀ s : State, ∃ t, exec .qDecode s = .next t ∧ (t.status.err = 0 ↔ ∃ ls e, HasQuestion s ls e)

/-- 41_question_codec.md R161, R160: the commit of a success with labels `ls` and the terminator at `e`,
and nothing else changes. -/
def Obligations.QDecodeCommitsTheQuestion : Prop :=
  encode .qDecode = 0x0000_0003 ∧
  ∀ (s : State) (ls : List Nat) (e : Nat), HasQuestion s ls e →
    ∃ t, exec .qDecode s = .next t ∧
      t = { s with
        qTypeClass := be16 (s.buf .ibuf (e + 3)) (s.buf .ibuf (e + 4)) ++
          be16 (s.buf .ibuf (e + 1)) (s.buf .ibuf (e + 2))
        qName := t.qName
        qEnd := t.qEnd
        mem := t.mem, outLen := 0, errInfo := ⟨0, 0⟩, status := s.status.completedNoResponse 0 } ∧
      t.qName.nameLen.toNat = e + 1 - 12 ∧ 3 ≤ e + 1 - 12 ∧ e + 1 - 12 ≤ 496 ∧
      t.qName.nLabels.toNat = ls.length ∧ t.qEnd.toNat = e + 5 ∧
      t.bytes .nbuf 0 (e + 1 - 12) = s.bytes .ibuf 12 (e + 1 - 12) ∧
      SameBytesOutside s t 0x600 (e + 1 - 12)

/-- 41_question_codec.md R157: a label that passes the STRICT checks and runs past the end, in either mode. -/
def Obligations.LabelOverrunIsMalformedAtLen : Prop :=
  ∀ (s : State) (ls : List Nat) (c : Nat), 13 ≤ s.len → s.len ≤ 512 → Walked s 12 ls c →
    (s.twoLabel = true → ls.length < 2) → s.lengthAt c ≠ 0 →
    (s.strict = true → s.lengthAt c < 0x40 ∧ (c - 12) + 1 + s.lengthAt c + 1 ≤ 255) →
    s.len ≤ c + 1 + s.lengthAt c →
    exec .qDecode s = .next (FailedWith s 3 3 s.len)

/-- 41_question_codec.md R162: the STRICT limits, checked before the overrun, in either mode. -/
def Obligations.StrictLimitIsMalformedAtTheCursor : Prop :=
  ∀ (s : State) (ls : List Nat) (c : Nat), 13 ≤ s.len → s.len ≤ 512 → Walked s 12 ls c →
    (s.twoLabel = true → ls.length < 2) → s.lengthAt c ≠ 0 → s.strict = true →
    (0x40 ≤ s.lengthAt c ∨ 255 < (c - 12) + 1 + s.lengthAt c + 1) →
    exec .qDecode s = .next (FailedWith s 3 3 c)

/-- 41_question_codec.md R159: the two terminator checks of TWO_LABEL. -/
def Obligations.TwoLabelTerminatorChecks : Prop :=
  ∀ (s : State) (ls : List Nat) (c : Nat), 13 ≤ s.len → s.len ≤ 512 → s.twoLabel = true → Walked s 12 ls c →
    (ls.length = 2 → s.lengthAt c ≠ 0 → exec .qDecode s = .next (FailedWith s 3 3 c)) ∧
    (ls.length = 1 → s.lengthAt c = 0 → exec .qDecode s = .next (FailedWith s 3 3 c))

/-- 41_question_codec.md R160: TYPE and CLASS do not lie below LEN. -/
def Obligations.MissingTypeOrClassIsMalformedAtLen : Prop :=
  ∀ (s : State) (ls : List Nat) (c : Nat), s.len ≤ 512 → Walked s 12 ls c → ls ≠ [] →
    (s.twoLabel = true → ls.length = 2) → s.lengthAt c = 0 → s.len ≤ c + 4 →
    exec .qDecode s = .next (FailedWith s 3 3 s.len)

/-- 41_question_codec.md R168: only the bytes at the cursors decide the labels. Two datagrams that agree
there decode to the same lengths, counts and end, whatever the labels' data bytes are. -/
def Obligations.LabelDataNeverMovesABoundary : Prop :=
  ∀ (s : State) (m : Memory) (ls : List Nat) (e : Nat), HasQuestion s ls e →
    (∀ c, c ∈ cursors 12 ls → ({ s with mem := m } : State).buf .ibuf c = s.buf .ibuf c) →
    ∃ t u, exec .qDecode s = .next t ∧ exec .qDecode { s with mem := m } = .next u ∧
      t.status.err = 0 ∧ u.status.err = 0 ∧ u.qName = t.qName ∧ u.qEnd = t.qEnd

/-- 41_question_codec.md R166: the bytes, Q_OUT_LEN, and nothing else changes. -/
def Obligations.QEncodeWritesNameTypeClass : Prop :=
  encode .qEncode = 0x0000_0004 ∧
  ∀ s : State, ∃ t, exec .qEncode s = .next t ∧
    t = { s with
      mem := t.mem, qOutLen := t.qOutLen, outLen := 0, errInfo := ⟨0, 0⟩
      status := s.status.completedNoResponse 0 } ∧
    t.qOutLen.toNat = s.nameLen + 4 ∧
    t.bytes .obuf 12 (s.nameLen + 4) =
      s.bytes .nbuf 0 s.nameLen ++ [hi8 s.qType, lo8 s.qType, hi8 s.qClass, lo8 s.qClass] ∧
    SameBytesOutside s t 0x80C (s.nameLen + 4)

/-- 41_question_codec.md R167: Q_DECODE, then Q_ENCODE in any later state whose NBUF and Q_* are those
Q_DECODE left, in every mode. -/
def Obligations.QuestionRoundTrip : Prop :=
  ∀ s : State, ∃ t, exec .qDecode s = .next t ∧ (t.status.err = 0 → ∀ v : State,
    v.qTypeClass = t.qTypeClass → v.qName = t.qName → (∀ k, k < 496 → v.buf .nbuf k = t.buf .nbuf k) →
    ∃ u, exec .qEncode v = .next u ∧
      u.qOutLen.toNat = t.qEnd.toNat - 12 ∧
      u.bytes .obuf 12 u.qOutLen.toNat = s.bytes .ibuf 12 (t.qEnd.toNat - 12))

/-! ### PROCESS -/

/-- 42_control.md R194, 60_exceptions.md R236(b): PROCESS is the five commands in order, stopped at the
first error. -/
def Obligations.ProcessIsTheFiveCommandsInOrder : Prop :=
  encode .process = 0x0000_0006 ∧
  ∀ s : State, ∃ p a b c d f,
    exec .process s = .next p ∧ exec .hdrDecode s = .next a ∧ exec .hdrEncode a = .next b ∧
    exec .qDecode b = .next c ∧ exec .qEncode c = .next d ∧ exec .compose d = .next f ∧
    (a.status.err ≠ 0 → p = a) ∧
    (a.status.err = 0 → c.status.err ≠ 0 → p = c) ∧
    (a.status.err = 0 → c.status.err = 0 → p = f)

/-- 42_control.md R194 with 40_header_codec.md R124 and 41_question_codec.md R167: on a datagram with a
question, PROCESS completes, and the response is the datagram with the counts of the policy and, in
SCOPE_ZERO, no flag but QR. -/
def Obligations.ProcessAnswersAQuestion : Prop :=
  ∀ (s : State) (ls : List Nat) (e : Nat), HasQuestion s ls e →
    ∃ t, exec .process s = .next t ∧
      t.status = { s.status.completed 0 with respValid := true } ∧ t.errInfo = ⟨0, 0⟩ ∧
      t.outLen.toNat = e + 5 ∧
      t.responseBytes =
        s.bytes .ibuf 0 2 ++
        (if s.scopeZero then [s.buf .ibuf 2 &&& 0x80, 0x00] else s.bytes .ibuf 2 2) ++
        wireBytes s.polQdcount ++ wireBytes s.polAncount ++ wireBytes s.polNscount ++ wireBytes s.polArcount ++
        s.bytes .ibuf 12 (e + 5 - 12)

/-- 60_exceptions.md R235, 42_control.md R194: the header stage's checks come first; a datagram of exactly
12 bytes, or of 13 with an empty domain, fails at the question stage with the header committed: the header
registers, and the twelve bytes of OBUF and no other byte. -/
def Obligations.ProcessReportsTheFirstFailingStage : Prop :=
  ∀ s : State,
    (512 < s.len → exec .process s = .next (FailedWith s 4 1 0)) ∧
    (s.len < 12 → exec .process s = .next (FailedWith s 1 2 s.len)) ∧
    (s.len = 12 → ∃ t h, exec .process s = .next t ∧ exec .hdrDecode s = .next h ∧
      t = { FailedWith h 1 3 12 with mem := t.mem } ∧
      t.bytes .obuf 0 2 = s.bytes .ibuf 0 2 ∧
      t.bytes .obuf 0 12 = wireBytes h.hId ++ wireBytes h.hFlags ++ wireBytes s.polQdcount
        ++ wireBytes s.polAncount ++ wireBytes s.polNscount ++ wireBytes s.polArcount ∧
      SameBytesOutside s t 0x800 12) ∧
    (s.len = 13 → s.buf .ibuf 12 = 0x00 → ∃ t h, exec .process s = .next t ∧ exec .hdrDecode s = .next h ∧
      t = { FailedWith h 2 3 12 with mem := t.mem } ∧
      t.bytes .obuf 0 2 = s.bytes .ibuf 0 2 ∧
      t.bytes .obuf 0 12 = wireBytes h.hId ++ wireBytes h.hFlags ++ wireBytes s.polQdcount
        ++ wireBytes s.polAncount ++ wireBytes s.polNscount ++ wireBytes s.polArcount ∧
      SameBytesOutside s t 0x800 12)

/-- 70_reset_and_hazards.md R275: the outcome and the response depend on CTRL, the policy, IN_LEN and the
datagram, and on nothing left from an earlier one. -/
def Obligations.ProcessCarriesNothingOver : Prop :=
  ∀ s s' : State, s'.ctrl = s.ctrl → s'.polQdAn = s.polQdAn → s'.polNsAr = s.polNsAr → s'.inLen = s.inLen →
    (∀ i, i < s.len → i < 512 → s'.buf .ibuf i = s.buf .ibuf i) →
    ∃ t t', exec .process s = .next t ∧ exec .process s' = .next t' ∧
      t'.status.err = t.status.err ∧ t'.errInfo = t.errInfo ∧ t'.status.respValid = t.status.respValid ∧
      t'.outLen = t.outLen ∧ t'.responseBytes = t.responseBytes

/-! ### Every command -/

/-- 42_control.md R191, 60_exceptions.md R231 to R234: every command completes, and its record is one of
success or of an error. -/
def Obligations.EveryCommandCompletes : Prop :=
  ∀ (i : Instr) (s : State), ∃ t, exec i s = .next t ∧
    t.status.busy = false ∧ t.status.done = true ∧
    t.status.werr = s.status.werr ∧ t.status.berr = s.status.berr ∧
    ((t.status.err = 0 ∧ t.errInfo = ⟨0, 0⟩) ∨
     (t.status.err = 1 ∧ t.errInfo = ⟨2, s.inLen⟩) ∨
     (t.status.err = 1 ∧ t.errInfo = ⟨3, s.inLen⟩) ∨
     (t.status.err = 2 ∧ t.errInfo = ⟨3, 12⟩) ∨
     (t.status.err = 3 ∧ t.errInfo.stage = 3 ∧ 12 ≤ t.errInfo.offset.toNat ∧ t.errInfo.offset.toNat ≤ s.len) ∨
     (t.status.err = 4 ∧ t.errInfo = ⟨1, 0⟩))

/-- 42_control.md R201: who writes RESP_VALID and OUT_LEN. -/
def Obligations.ResponseLifecycle : Prop :=
  (∀ (i : Instr) (s : State), i ≠ .nop → i ≠ .compose → i ≠ .process →
    ∃ t, exec i s = .next t ∧ t.status.respValid = false ∧ t.outLen = 0) ∧
  (∀ s : State, ∃ t, exec .nop s = .next t ∧ t.status.respValid = s.status.respValid ∧ t.outLen = s.outLen) ∧
  (∀ s : State, ∃ t, exec .compose s = .next t ∧ t.status.respValid = true ∧ t.outLen = 12 + t.qOutLen) ∧
  (∀ s : State, ∃ t, exec .process s = .next t ∧
    (t.status.err = 0 → t.status.respValid = true ∧ t.outLen = 12 + t.qOutLen) ∧
    (t.status.err ≠ 0 → t.status.respValid = false ∧ t.outLen = 0)) ∧
  (∀ (i : Instr) (s : State), ∃ t, exec i s = .next t ∧
    (t.status.err ≠ 0 → t.status.respValid = false ∧ t.outLen = 0)) ∧
  (∀ s : State, s.status.busy = true → (∃ e, decode s.lastCmd = .error e) →
    ∃ t, engineStep s = .next t ∧ t.status.respValid = false ∧ t.outLen = 0) ∧
  (∀ s : State, ∃ t, rstStep s = .next t ∧ t.status.respValid = false ∧ t.outLen = 0) ∧
  (∀ (s : State) (a : Access), ∃ t, accessStep s a = .next t ∧
    t.status.respValid = s.status.respValid ∧ t.outLen = s.outLen)

/-- 60_exceptions.md R236(a), (c), (d): a decode command that raises changes nothing but the error record. -/
def Obligations.AFailingDecodeWritesNoResult : Prop :=
  ∀ (i : Instr) (s : State), i = .hdrDecode ∨ i = .qDecode →
    ∃ t, exec i s = .next t ∧
      (t.status.err ≠ 0 → t = { s with
        outLen := 0, errInfo := t.errInfo, status := s.status.completedNoResponse t.status.err })

/-- 10_state.md R38, 20_memory.md R67, 70_reset_and_hazards.md R279: no command writes CTRL, IN_LEN, the
policy, LAST_CMD or an IBUF byte, and none touches the host. -/
def Obligations.NoCommandWritesItsInputs : Prop :=
  ∀ (i : Instr) (s : State), ∃ t, exec i s = .next t ∧
    t.ctrl = s.ctrl ∧ t.inLen = s.inLen ∧ t.polQdAn = s.polQdAn ∧ t.polNsAr = s.polNsAr ∧
    t.lastCmd = s.lastCmd ∧ t.epoch = s.epoch ∧ t.env = s.env ∧
    (∀ k, k < 512 → t.buf .ibuf k = s.buf .ibuf k)

/-- 10_state.md R35, R36, R37, R39, R41, R46: which commands write which result. PROCESS runs the stages
of the four codecs, so it writes what they write. -/
def Obligations.OnlyTheNamedCommandsWriteAResult : Prop :=
  ∀ (i : Instr) (s : State), ∃ t, exec i s = .next t ∧
    (i ≠ .hdrDecode → i ≠ .process → i ≠ .clear →
      t.hId = s.hId ∧ t.hFlags = s.hFlags ∧ t.hQdAn = s.hQdAn ∧ t.hNsAr = s.hNsAr) ∧
    (i ≠ .qDecode → i ≠ .process → i ≠ .clear →
      t.qTypeClass = s.qTypeClass ∧ t.qName = s.qName ∧ t.qEnd = s.qEnd) ∧
    (i ≠ .qEncode → i ≠ .process → i ≠ .clear → t.qOutLen = s.qOutLen) ∧
    (i ≠ .qDecode → i ≠ .process → ∀ k, k < 496 → t.buf .nbuf k = s.buf .nbuf k) ∧
    (i ≠ .hdrEncode → i ≠ .qEncode → i ≠ .process → ∀ k, k < 512 → t.buf .obuf k = s.buf .obuf k)

/-- 20_memory.md R78: an IBUF byte at or beyond IN_LEN never affects a result. -/
def Obligations.BytesBeyondLenNeverMatter : Prop :=
  ∀ (i : Instr) (s s' : State), AgreeBelowLen s s' →
    ∃ t t', exec i s = .next t ∧ exec i s' = .next t' ∧ AgreeBelowLen t t'

/-! ### The invariant -/

/-- 10_state.md R44 holds at reset. -/
def Obligations.ResetMeetsTheInvariant : Prop := Inv State.reset

/-- 10_state.md R44: every step, of the engine, the host or `rst`, keeps the invariant. -/
def Obligations.EveryStepKeepsTheInvariant : Prop :=
  ∀ s t : State, Inv s → step s = .next t → Inv t

/-! ### The host's program, and several instances -/

/-- 30_encoding.md R100: each operation makes its bus transaction at its window offset, and the program
goes on to the next line. For an index outside the buffer, which no well-formed program holds, the offset modulo
4096 is the model's choice (log 9). -/
def Obligations.HostOperationsMakeTheirTransaction : Prop :=
  ∀ (s : State) (n : Nat) (ls : List Label), s.env.pending = [] → s.env.pc = n →
    let goesOn := fun (op : HostOp) (a : Access) =>
      s.env.program[n]? = some (⟨ls, op⟩ : Line) → hostStep s = .next ((s.perform a).goto (n + 1))
    (∀ r v, goesOn (.wr r v) (.write .w32 (BitVec.ofNat 12 r.offset) v)) ∧
    (∀ r, goesOn (.rd r) (.read .w32 (BitVec.ofNat 12 r.offset))) ∧
    (∀ i v, goesOn (.wrb .ibuf i v) (.write .w8 (BitVec.ofNat 12 (0x400 + i)) (v.setWidth 32))) ∧
    (∀ i v, goesOn (.wrb .nbuf i v) (.write .w8 (BitVec.ofNat 12 (0x600 + i)) (v.setWidth 32))) ∧
    (∀ i v, goesOn (.wrb .obuf i v) (.write .w8 (BitVec.ofNat 12 (0x800 + i)) (v.setWidth 32))) ∧
    (∀ i, goesOn (.rdb .ibuf i) (.read .w8 (BitVec.ofNat 12 (0x400 + i)))) ∧
    (∀ i, goesOn (.rdb .nbuf i) (.read .w8 (BitVec.ofNat 12 (0x600 + i)))) ∧
    (∀ i, goesOn (.rdb .obuf i) (.read .w8 (BitVec.ofNat 12 (0x800 + i)))) ∧
    (∀ m, goesOn (.cmd m) (.write .w32 0x008 (encode m)))

/-- 30_encoding.md R100: `bnz` makes no transaction and branches on the value last read. -/
def Obligations.BnzBranchesOnTheValueLastRead : Prop :=
  ∀ (s : State) (ls : List Label) (f : RegField) (l : Label) (v : Word) (k : Nat),
    s.env.pending = [] → s.env.program[s.env.pc]? = some (⟨ls, .bnz f l⟩ : Line) →
    lastRead f.reg s.env.trace = some v → findLabel s.env.program l 0 = some k →
    hostStep s = .next (s.goto (if f.get v ≠ 0 then k else s.env.pc + 1)) ∧
    (∃ ln, s.env.program[k]? = some ln ∧ l ∈ ln.labels)

/-- 30_encoding.md R101: the expansions of the pseudo-operations. The model's own (log 9): the fresh label is
named by its source line; a `fetch` reads OUT_LEN in its own host turn and owes the OBUF reads; and each host
turn that finds accesses owed makes the first of them and leaves the rest. -/
def Obligations.PseudoOperationsExpand : Prop :=
  (∀ n, expandOp n .wait =
    [⟨[.fresh n], .rd .status⟩, ⟨[], .bnz ⟨.status, 0, 1⟩ (.fresh n)⟩]) ∧
  (∀ n m, expandOp n (.run m) = ⟨[], .cmd m⟩ :: expandOp n .wait) ∧
  (∀ n bs,
    (expandOp n (.load bs)).length = bs.length + 1 ∧
    (∀ k b, bs[k]? = some b → (expandOp n (.load bs))[k]? = some (⟨[], .wrb .ibuf k b⟩ : Line)) ∧
    (expandOp n (.load bs))[bs.length]? = some (⟨[], .wr .inLen (BitVec.ofNat 32 bs.length)⟩ : Line)) ∧
  (∀ n, expandOp n .ack = [⟨[], .wr .status 0x0000_0002⟩]) ∧
  (∀ n ie hdr lbl strict, expandOp n (.setmode ie hdr lbl strict) =
    [⟨[], .wr .ctrl (BitVec.ofNat 32 (ie + 2 * hdr + 4 * lbl + 8 * strict))⟩]) ∧
  (∀ (s : State) (ls : List Label), s.env.pending = [] → s.env.program[s.env.pc]? = some (⟨ls, .fetch⟩ : Line) →
    ∃ t, hostStep s = .next t ∧ SameRegisters s t ∧
      t.env.trace = (⟨.read .w32 0x014, s.outLen.setWidth 32⟩ : BusRecord) :: s.env.trace ∧
      t.env.pending.length = s.outLen.toNat ∧
      ∀ i, i < s.outLen.toNat → t.env.pending[i]? = some (Access.read .w8 (BitVec.ofNat 12 (0x800 + i)))) ∧
  (∀ (s : State) (a : Access) (rest : List Access), s.env.pending = a :: rest →
    hostStep s = .next ((s.owe rest).perform a) ∧ ((s.owe rest).perform a).env.pending = rest)

/-- 60_exceptions.md R247: the instances of a platform share no state. -/
def Obligations.InstancesShareNoState : Prop :=
  ∀ (ps : Platform) (k : Nat) (p : Placed) (t : State), ps[k]? = some p → step p.block = .next t →
    ∃ qs, Platform.stepAt ps k = .next qs ∧ qs[k]? = some ({ p with block := t } : Placed) ∧
      ∀ j, j ≠ k → qs[j]? = ps[j]?
end

