-- ==== Sys2Proof/Laws/State.lean ====
section
/-! SUPPORT. One lemma per field per update of State, so that no proof unfolds a record update. -/

namespace Sys2Proof.Machine

/-! ### putByte -/

@[simp] theorem putByte_ctrl (s : State) (a : Nat) (b : Byte) : (s.putByte a b).ctrl = s.ctrl := rfl
@[simp] theorem putByte_status (s : State) (a : Nat) (b : Byte) : (s.putByte a b).status = s.status := rfl
@[simp] theorem putByte_lastCmd (s : State) (a : Nat) (b : Byte) : (s.putByte a b).lastCmd = s.lastCmd := rfl
@[simp] theorem putByte_errInfo (s : State) (a : Nat) (b : Byte) : (s.putByte a b).errInfo = s.errInfo := rfl
@[simp] theorem putByte_inLen (s : State) (a : Nat) (b : Byte) : (s.putByte a b).inLen = s.inLen := rfl
@[simp] theorem putByte_outLen (s : State) (a : Nat) (b : Byte) : (s.putByte a b).outLen = s.outLen := rfl
@[simp] theorem putByte_polQdAn (s : State) (a : Nat) (b : Byte) : (s.putByte a b).polQdAn = s.polQdAn := rfl
@[simp] theorem putByte_polNsAr (s : State) (a : Nat) (b : Byte) : (s.putByte a b).polNsAr = s.polNsAr := rfl
@[simp] theorem putByte_hId (s : State) (a : Nat) (b : Byte) : (s.putByte a b).hId = s.hId := rfl
@[simp] theorem putByte_hFlags (s : State) (a : Nat) (b : Byte) : (s.putByte a b).hFlags = s.hFlags := rfl
@[simp] theorem putByte_hQdAn (s : State) (a : Nat) (b : Byte) : (s.putByte a b).hQdAn = s.hQdAn := rfl
@[simp] theorem putByte_hNsAr (s : State) (a : Nat) (b : Byte) : (s.putByte a b).hNsAr = s.hNsAr := rfl
@[simp] theorem putByte_qTypeClass (s : State) (a : Nat) (b : Byte) : (s.putByte a b).qTypeClass = s.qTypeClass := rfl
@[simp] theorem putByte_qName (s : State) (a : Nat) (b : Byte) : (s.putByte a b).qName = s.qName := rfl
@[simp] theorem putByte_qOutLen (s : State) (a : Nat) (b : Byte) : (s.putByte a b).qOutLen = s.qOutLen := rfl
@[simp] theorem putByte_qEnd (s : State) (a : Nat) (b : Byte) : (s.putByte a b).qEnd = s.qEnd := rfl
@[simp] theorem putByte_mem (s : State) (a : Nat) (b : Byte) : (s.putByte a b).mem = s.mem.put a b := rfl
@[simp] theorem putByte_epoch (s : State) (a : Nat) (b : Byte) : (s.putByte a b).epoch = s.epoch := rfl
@[simp] theorem putByte_env (s : State) (a : Nat) (b : Byte) : (s.putByte a b).env = s.env := rfl

/-! ### setBuf -/

@[simp] theorem setBuf_ctrl (s : State) (b : Buf) (i : Nat) (v : Byte) : (s.setBuf b i v).ctrl = s.ctrl := rfl
@[simp] theorem setBuf_status (s : State) (b : Buf) (i : Nat) (v : Byte) : (s.setBuf b i v).status = s.status := rfl
@[simp] theorem setBuf_lastCmd (s : State) (b : Buf) (i : Nat) (v : Byte) : (s.setBuf b i v).lastCmd = s.lastCmd := rfl
@[simp] theorem setBuf_errInfo (s : State) (b : Buf) (i : Nat) (v : Byte) : (s.setBuf b i v).errInfo = s.errInfo := rfl
@[simp] theorem setBuf_inLen (s : State) (b : Buf) (i : Nat) (v : Byte) : (s.setBuf b i v).inLen = s.inLen := rfl
@[simp] theorem setBuf_outLen (s : State) (b : Buf) (i : Nat) (v : Byte) : (s.setBuf b i v).outLen = s.outLen := rfl
@[simp] theorem setBuf_polQdAn (s : State) (b : Buf) (i : Nat) (v : Byte) : (s.setBuf b i v).polQdAn = s.polQdAn := rfl
@[simp] theorem setBuf_polNsAr (s : State) (b : Buf) (i : Nat) (v : Byte) : (s.setBuf b i v).polNsAr = s.polNsAr := rfl
@[simp] theorem setBuf_hId (s : State) (b : Buf) (i : Nat) (v : Byte) : (s.setBuf b i v).hId = s.hId := rfl
@[simp] theorem setBuf_hFlags (s : State) (b : Buf) (i : Nat) (v : Byte) : (s.setBuf b i v).hFlags = s.hFlags := rfl
@[simp] theorem setBuf_hQdAn (s : State) (b : Buf) (i : Nat) (v : Byte) : (s.setBuf b i v).hQdAn = s.hQdAn := rfl
@[simp] theorem setBuf_hNsAr (s : State) (b : Buf) (i : Nat) (v : Byte) : (s.setBuf b i v).hNsAr = s.hNsAr := rfl
@[simp] theorem setBuf_qTypeClass (s : State) (b : Buf) (i : Nat) (v : Byte) : (s.setBuf b i v).qTypeClass = s.qTypeClass := rfl
@[simp] theorem setBuf_qName (s : State) (b : Buf) (i : Nat) (v : Byte) : (s.setBuf b i v).qName = s.qName := rfl
@[simp] theorem setBuf_qOutLen (s : State) (b : Buf) (i : Nat) (v : Byte) : (s.setBuf b i v).qOutLen = s.qOutLen := rfl
@[simp] theorem setBuf_qEnd (s : State) (b : Buf) (i : Nat) (v : Byte) : (s.setBuf b i v).qEnd = s.qEnd := rfl
@[simp] theorem setBuf_mem (s : State) (b : Buf) (i : Nat) (v : Byte) : (s.setBuf b i v).mem = s.mem.put (b.base + i) v := rfl
@[simp] theorem setBuf_epoch (s : State) (b : Buf) (i : Nat) (v : Byte) : (s.setBuf b i v).epoch = s.epoch := rfl
@[simp] theorem setBuf_env (s : State) (b : Buf) (i : Nat) (v : Byte) : (s.setBuf b i v).env = s.env := rfl

/-! ### putBytes -/

@[simp] theorem putBytes_ctrl (s : State) (b : Buf) (i : Nat) (bs : List Byte) : (s.putBytes b i bs).ctrl = s.ctrl := rfl
@[simp] theorem putBytes_status (s : State) (b : Buf) (i : Nat) (bs : List Byte) : (s.putBytes b i bs).status = s.status := rfl
@[simp] theorem putBytes_lastCmd (s : State) (b : Buf) (i : Nat) (bs : List Byte) : (s.putBytes b i bs).lastCmd = s.lastCmd := rfl
@[simp] theorem putBytes_errInfo (s : State) (b : Buf) (i : Nat) (bs : List Byte) : (s.putBytes b i bs).errInfo = s.errInfo := rfl
@[simp] theorem putBytes_inLen (s : State) (b : Buf) (i : Nat) (bs : List Byte) : (s.putBytes b i bs).inLen = s.inLen := rfl
@[simp] theorem putBytes_outLen (s : State) (b : Buf) (i : Nat) (bs : List Byte) : (s.putBytes b i bs).outLen = s.outLen := rfl
@[simp] theorem putBytes_polQdAn (s : State) (b : Buf) (i : Nat) (bs : List Byte) : (s.putBytes b i bs).polQdAn = s.polQdAn := rfl
@[simp] theorem putBytes_polNsAr (s : State) (b : Buf) (i : Nat) (bs : List Byte) : (s.putBytes b i bs).polNsAr = s.polNsAr := rfl
@[simp] theorem putBytes_hId (s : State) (b : Buf) (i : Nat) (bs : List Byte) : (s.putBytes b i bs).hId = s.hId := rfl
@[simp] theorem putBytes_hFlags (s : State) (b : Buf) (i : Nat) (bs : List Byte) : (s.putBytes b i bs).hFlags = s.hFlags := rfl
@[simp] theorem putBytes_hQdAn (s : State) (b : Buf) (i : Nat) (bs : List Byte) : (s.putBytes b i bs).hQdAn = s.hQdAn := rfl
@[simp] theorem putBytes_hNsAr (s : State) (b : Buf) (i : Nat) (bs : List Byte) : (s.putBytes b i bs).hNsAr = s.hNsAr := rfl
@[simp] theorem putBytes_qTypeClass (s : State) (b : Buf) (i : Nat) (bs : List Byte) : (s.putBytes b i bs).qTypeClass = s.qTypeClass := rfl
@[simp] theorem putBytes_qName (s : State) (b : Buf) (i : Nat) (bs : List Byte) : (s.putBytes b i bs).qName = s.qName := rfl
@[simp] theorem putBytes_qOutLen (s : State) (b : Buf) (i : Nat) (bs : List Byte) : (s.putBytes b i bs).qOutLen = s.qOutLen := rfl
@[simp] theorem putBytes_qEnd (s : State) (b : Buf) (i : Nat) (bs : List Byte) : (s.putBytes b i bs).qEnd = s.qEnd := rfl
@[simp] theorem putBytes_mem (s : State) (b : Buf) (i : Nat) (bs : List Byte) : (s.putBytes b i bs).mem = s.mem.putAll (b.base + i) bs := rfl
@[simp] theorem putBytes_epoch (s : State) (b : Buf) (i : Nat) (bs : List Byte) : (s.putBytes b i bs).epoch = s.epoch := rfl
@[simp] theorem putBytes_env (s : State) (b : Buf) (i : Nat) (bs : List Byte) : (s.putBytes b i bs).env = s.env := rfl

/-! ### accept -/

@[simp] theorem accept_ctrl (s : State) (w : Word) : (s.accept w).ctrl = s.ctrl := rfl
@[simp] theorem accept_status (s : State) (w : Word) : (s.accept w).status = { s.status with busy := true, done := false } := rfl
@[simp] theorem accept_lastCmd (s : State) (w : Word) : (s.accept w).lastCmd = w := rfl
@[simp] theorem accept_errInfo (s : State) (w : Word) : (s.accept w).errInfo = s.errInfo := rfl
@[simp] theorem accept_inLen (s : State) (w : Word) : (s.accept w).inLen = s.inLen := rfl
@[simp] theorem accept_outLen (s : State) (w : Word) : (s.accept w).outLen = s.outLen := rfl
@[simp] theorem accept_polQdAn (s : State) (w : Word) : (s.accept w).polQdAn = s.polQdAn := rfl
@[simp] theorem accept_polNsAr (s : State) (w : Word) : (s.accept w).polNsAr = s.polNsAr := rfl
@[simp] theorem accept_hId (s : State) (w : Word) : (s.accept w).hId = s.hId := rfl
@[simp] theorem accept_hFlags (s : State) (w : Word) : (s.accept w).hFlags = s.hFlags := rfl
@[simp] theorem accept_hQdAn (s : State) (w : Word) : (s.accept w).hQdAn = s.hQdAn := rfl
@[simp] theorem accept_hNsAr (s : State) (w : Word) : (s.accept w).hNsAr = s.hNsAr := rfl
@[simp] theorem accept_qTypeClass (s : State) (w : Word) : (s.accept w).qTypeClass = s.qTypeClass := rfl
@[simp] theorem accept_qName (s : State) (w : Word) : (s.accept w).qName = s.qName := rfl
@[simp] theorem accept_qOutLen (s : State) (w : Word) : (s.accept w).qOutLen = s.qOutLen := rfl
@[simp] theorem accept_qEnd (s : State) (w : Word) : (s.accept w).qEnd = s.qEnd := rfl
@[simp] theorem accept_mem (s : State) (w : Word) : (s.accept w).mem = s.mem := rfl
@[simp] theorem accept_epoch (s : State) (w : Word) : (s.accept w).epoch = s.epoch := rfl
@[simp] theorem accept_env (s : State) (w : Word) : (s.accept w).env = s.env := rfl

/-! ### dropResponse -/

@[simp] theorem dropResponse_ctrl (s : State) : (s.dropResponse).ctrl = s.ctrl := rfl
@[simp] theorem dropResponse_status (s : State) : (s.dropResponse).status = { s.status with respValid := false } := rfl
@[simp] theorem dropResponse_lastCmd (s : State) : (s.dropResponse).lastCmd = s.lastCmd := rfl
@[simp] theorem dropResponse_errInfo (s : State) : (s.dropResponse).errInfo = s.errInfo := rfl
@[simp] theorem dropResponse_inLen (s : State) : (s.dropResponse).inLen = s.inLen := rfl
@[simp] theorem dropResponse_outLen (s : State) : (s.dropResponse).outLen = 0 := rfl
@[simp] theorem dropResponse_polQdAn (s : State) : (s.dropResponse).polQdAn = s.polQdAn := rfl
@[simp] theorem dropResponse_polNsAr (s : State) : (s.dropResponse).polNsAr = s.polNsAr := rfl
@[simp] theorem dropResponse_hId (s : State) : (s.dropResponse).hId = s.hId := rfl
@[simp] theorem dropResponse_hFlags (s : State) : (s.dropResponse).hFlags = s.hFlags := rfl
@[simp] theorem dropResponse_hQdAn (s : State) : (s.dropResponse).hQdAn = s.hQdAn := rfl
@[simp] theorem dropResponse_hNsAr (s : State) : (s.dropResponse).hNsAr = s.hNsAr := rfl
@[simp] theorem dropResponse_qTypeClass (s : State) : (s.dropResponse).qTypeClass = s.qTypeClass := rfl
@[simp] theorem dropResponse_qName (s : State) : (s.dropResponse).qName = s.qName := rfl
@[simp] theorem dropResponse_qOutLen (s : State) : (s.dropResponse).qOutLen = s.qOutLen := rfl
@[simp] theorem dropResponse_qEnd (s : State) : (s.dropResponse).qEnd = s.qEnd := rfl
@[simp] theorem dropResponse_mem (s : State) : (s.dropResponse).mem = s.mem := rfl
@[simp] theorem dropResponse_epoch (s : State) : (s.dropResponse).epoch = s.epoch := rfl
@[simp] theorem dropResponse_env (s : State) : (s.dropResponse).env = s.env := rfl

/-! ### complete -/

@[simp] theorem complete_ctrl (s : State) : (s.complete).ctrl = s.ctrl := rfl
@[simp] theorem complete_status (s : State) : (s.complete).status = { s.status with busy := false, done := true, err := 0 } := rfl
@[simp] theorem complete_lastCmd (s : State) : (s.complete).lastCmd = s.lastCmd := rfl
@[simp] theorem complete_errInfo (s : State) : (s.complete).errInfo = ⟨0, 0⟩ := rfl
@[simp] theorem complete_inLen (s : State) : (s.complete).inLen = s.inLen := rfl
@[simp] theorem complete_outLen (s : State) : (s.complete).outLen = s.outLen := rfl
@[simp] theorem complete_polQdAn (s : State) : (s.complete).polQdAn = s.polQdAn := rfl
@[simp] theorem complete_polNsAr (s : State) : (s.complete).polNsAr = s.polNsAr := rfl
@[simp] theorem complete_hId (s : State) : (s.complete).hId = s.hId := rfl
@[simp] theorem complete_hFlags (s : State) : (s.complete).hFlags = s.hFlags := rfl
@[simp] theorem complete_hQdAn (s : State) : (s.complete).hQdAn = s.hQdAn := rfl
@[simp] theorem complete_hNsAr (s : State) : (s.complete).hNsAr = s.hNsAr := rfl
@[simp] theorem complete_qTypeClass (s : State) : (s.complete).qTypeClass = s.qTypeClass := rfl
@[simp] theorem complete_qName (s : State) : (s.complete).qName = s.qName := rfl
@[simp] theorem complete_qOutLen (s : State) : (s.complete).qOutLen = s.qOutLen := rfl
@[simp] theorem complete_qEnd (s : State) : (s.complete).qEnd = s.qEnd := rfl
@[simp] theorem complete_mem (s : State) : (s.complete).mem = s.mem := rfl
@[simp] theorem complete_epoch (s : State) : (s.complete).epoch = s.epoch := rfl
@[simp] theorem complete_env (s : State) : (s.complete).env = s.env := rfl

/-! ### fail -/

@[simp] theorem fail_ctrl (s : State) (e : CmdError) : (s.fail e).ctrl = s.ctrl := rfl
@[simp] theorem fail_status (s : State) (e : CmdError) : (s.fail e).status = { s.status with busy := false, done := true, respValid := false, err := e.kind.code } := rfl
@[simp] theorem fail_lastCmd (s : State) (e : CmdError) : (s.fail e).lastCmd = s.lastCmd := rfl
@[simp] theorem fail_errInfo (s : State) (e : CmdError) : (s.fail e).errInfo = ⟨e.stage.code, BitVec.ofNat 10 e.offset⟩ := rfl
@[simp] theorem fail_inLen (s : State) (e : CmdError) : (s.fail e).inLen = s.inLen := rfl
@[simp] theorem fail_outLen (s : State) (e : CmdError) : (s.fail e).outLen = 0 := rfl
@[simp] theorem fail_polQdAn (s : State) (e : CmdError) : (s.fail e).polQdAn = s.polQdAn := rfl
@[simp] theorem fail_polNsAr (s : State) (e : CmdError) : (s.fail e).polNsAr = s.polNsAr := rfl
@[simp] theorem fail_hId (s : State) (e : CmdError) : (s.fail e).hId = s.hId := rfl
@[simp] theorem fail_hFlags (s : State) (e : CmdError) : (s.fail e).hFlags = s.hFlags := rfl
@[simp] theorem fail_hQdAn (s : State) (e : CmdError) : (s.fail e).hQdAn = s.hQdAn := rfl
@[simp] theorem fail_hNsAr (s : State) (e : CmdError) : (s.fail e).hNsAr = s.hNsAr := rfl
@[simp] theorem fail_qTypeClass (s : State) (e : CmdError) : (s.fail e).qTypeClass = s.qTypeClass := rfl
@[simp] theorem fail_qName (s : State) (e : CmdError) : (s.fail e).qName = s.qName := rfl
@[simp] theorem fail_qOutLen (s : State) (e : CmdError) : (s.fail e).qOutLen = s.qOutLen := rfl
@[simp] theorem fail_qEnd (s : State) (e : CmdError) : (s.fail e).qEnd = s.qEnd := rfl
@[simp] theorem fail_mem (s : State) (e : CmdError) : (s.fail e).mem = s.mem := rfl
@[simp] theorem fail_epoch (s : State) (e : CmdError) : (s.fail e).epoch = s.epoch := rfl
@[simp] theorem fail_env (s : State) (e : CmdError) : (s.fail e).env = s.env := rfl

/-! ### setHeader -/

@[simp] theorem setHeader_ctrl (s : State) (i f q a n r : Half) : (s.setHeader i f q a n r).ctrl = s.ctrl := rfl
@[simp] theorem setHeader_status (s : State) (i f q a n r : Half) : (s.setHeader i f q a n r).status = s.status := rfl
@[simp] theorem setHeader_lastCmd (s : State) (i f q a n r : Half) : (s.setHeader i f q a n r).lastCmd = s.lastCmd := rfl
@[simp] theorem setHeader_errInfo (s : State) (i f q a n r : Half) : (s.setHeader i f q a n r).errInfo = s.errInfo := rfl
@[simp] theorem setHeader_inLen (s : State) (i f q a n r : Half) : (s.setHeader i f q a n r).inLen = s.inLen := rfl
@[simp] theorem setHeader_outLen (s : State) (i f q a n r : Half) : (s.setHeader i f q a n r).outLen = s.outLen := rfl
@[simp] theorem setHeader_polQdAn (s : State) (i f q a n r : Half) : (s.setHeader i f q a n r).polQdAn = s.polQdAn := rfl
@[simp] theorem setHeader_polNsAr (s : State) (i f q a n r : Half) : (s.setHeader i f q a n r).polNsAr = s.polNsAr := rfl
@[simp] theorem setHeader_hId (s : State) (i f q a n r : Half) : (s.setHeader i f q a n r).hId = i := rfl
@[simp] theorem setHeader_hFlags (s : State) (i f q a n r : Half) : (s.setHeader i f q a n r).hFlags = f := rfl
@[simp] theorem setHeader_hQdAn (s : State) (i f q a n r : Half) : (s.setHeader i f q a n r).hQdAn = packHalves a q := rfl
@[simp] theorem setHeader_hNsAr (s : State) (i f q a n r : Half) : (s.setHeader i f q a n r).hNsAr = packHalves r n := rfl
@[simp] theorem setHeader_qTypeClass (s : State) (i f q a n r : Half) : (s.setHeader i f q a n r).qTypeClass = s.qTypeClass := rfl
@[simp] theorem setHeader_qName (s : State) (i f q a n r : Half) : (s.setHeader i f q a n r).qName = s.qName := rfl
@[simp] theorem setHeader_qOutLen (s : State) (i f q a n r : Half) : (s.setHeader i f q a n r).qOutLen = s.qOutLen := rfl
@[simp] theorem setHeader_qEnd (s : State) (i f q a n r : Half) : (s.setHeader i f q a n r).qEnd = s.qEnd := rfl
@[simp] theorem setHeader_mem (s : State) (i f q a n r : Half) : (s.setHeader i f q a n r).mem = s.mem := rfl
@[simp] theorem setHeader_epoch (s : State) (i f q a n r : Half) : (s.setHeader i f q a n r).epoch = s.epoch := rfl
@[simp] theorem setHeader_env (s : State) (i f q a n r : Half) : (s.setHeader i f q a n r).env = s.env := rfl

/-! ### setBerr -/

@[simp] theorem setBerr_ctrl (s : State) : (s.setBerr).ctrl = s.ctrl := rfl
@[simp] theorem setBerr_status (s : State) : (s.setBerr).status = { s.status with berr := true } := rfl
@[simp] theorem setBerr_lastCmd (s : State) : (s.setBerr).lastCmd = s.lastCmd := rfl
@[simp] theorem setBerr_errInfo (s : State) : (s.setBerr).errInfo = s.errInfo := rfl
@[simp] theorem setBerr_inLen (s : State) : (s.setBerr).inLen = s.inLen := rfl
@[simp] theorem setBerr_outLen (s : State) : (s.setBerr).outLen = s.outLen := rfl
@[simp] theorem setBerr_polQdAn (s : State) : (s.setBerr).polQdAn = s.polQdAn := rfl
@[simp] theorem setBerr_polNsAr (s : State) : (s.setBerr).polNsAr = s.polNsAr := rfl
@[simp] theorem setBerr_hId (s : State) : (s.setBerr).hId = s.hId := rfl
@[simp] theorem setBerr_hFlags (s : State) : (s.setBerr).hFlags = s.hFlags := rfl
@[simp] theorem setBerr_hQdAn (s : State) : (s.setBerr).hQdAn = s.hQdAn := rfl
@[simp] theorem setBerr_hNsAr (s : State) : (s.setBerr).hNsAr = s.hNsAr := rfl
@[simp] theorem setBerr_qTypeClass (s : State) : (s.setBerr).qTypeClass = s.qTypeClass := rfl
@[simp] theorem setBerr_qName (s : State) : (s.setBerr).qName = s.qName := rfl
@[simp] theorem setBerr_qOutLen (s : State) : (s.setBerr).qOutLen = s.qOutLen := rfl
@[simp] theorem setBerr_qEnd (s : State) : (s.setBerr).qEnd = s.qEnd := rfl
@[simp] theorem setBerr_mem (s : State) : (s.setBerr).mem = s.mem := rfl
@[simp] theorem setBerr_epoch (s : State) : (s.setBerr).epoch = s.epoch := rfl
@[simp] theorem setBerr_env (s : State) : (s.setBerr).env = s.env := rfl

/-! ### setWerr -/

@[simp] theorem setWerr_ctrl (s : State) : (s.setWerr).ctrl = s.ctrl := rfl
@[simp] theorem setWerr_status (s : State) : (s.setWerr).status = { s.status with werr := true } := rfl
@[simp] theorem setWerr_lastCmd (s : State) : (s.setWerr).lastCmd = s.lastCmd := rfl
@[simp] theorem setWerr_errInfo (s : State) : (s.setWerr).errInfo = s.errInfo := rfl
@[simp] theorem setWerr_inLen (s : State) : (s.setWerr).inLen = s.inLen := rfl
@[simp] theorem setWerr_outLen (s : State) : (s.setWerr).outLen = s.outLen := rfl
@[simp] theorem setWerr_polQdAn (s : State) : (s.setWerr).polQdAn = s.polQdAn := rfl
@[simp] theorem setWerr_polNsAr (s : State) : (s.setWerr).polNsAr = s.polNsAr := rfl
@[simp] theorem setWerr_hId (s : State) : (s.setWerr).hId = s.hId := rfl
@[simp] theorem setWerr_hFlags (s : State) : (s.setWerr).hFlags = s.hFlags := rfl
@[simp] theorem setWerr_hQdAn (s : State) : (s.setWerr).hQdAn = s.hQdAn := rfl
@[simp] theorem setWerr_hNsAr (s : State) : (s.setWerr).hNsAr = s.hNsAr := rfl
@[simp] theorem setWerr_qTypeClass (s : State) : (s.setWerr).qTypeClass = s.qTypeClass := rfl
@[simp] theorem setWerr_qName (s : State) : (s.setWerr).qName = s.qName := rfl
@[simp] theorem setWerr_qOutLen (s : State) : (s.setWerr).qOutLen = s.qOutLen := rfl
@[simp] theorem setWerr_qEnd (s : State) : (s.setWerr).qEnd = s.qEnd := rfl
@[simp] theorem setWerr_mem (s : State) : (s.setWerr).mem = s.mem := rfl
@[simp] theorem setWerr_epoch (s : State) : (s.setWerr).epoch = s.epoch := rfl
@[simp] theorem setWerr_env (s : State) : (s.setWerr).env = s.env := rfl

/-! ### goto -/

@[simp] theorem goto_ctrl (s : State) (n : Nat) : (s.goto n).ctrl = s.ctrl := rfl
@[simp] theorem goto_status (s : State) (n : Nat) : (s.goto n).status = s.status := rfl
@[simp] theorem goto_lastCmd (s : State) (n : Nat) : (s.goto n).lastCmd = s.lastCmd := rfl
@[simp] theorem goto_errInfo (s : State) (n : Nat) : (s.goto n).errInfo = s.errInfo := rfl
@[simp] theorem goto_inLen (s : State) (n : Nat) : (s.goto n).inLen = s.inLen := rfl
@[simp] theorem goto_outLen (s : State) (n : Nat) : (s.goto n).outLen = s.outLen := rfl
@[simp] theorem goto_polQdAn (s : State) (n : Nat) : (s.goto n).polQdAn = s.polQdAn := rfl
@[simp] theorem goto_polNsAr (s : State) (n : Nat) : (s.goto n).polNsAr = s.polNsAr := rfl
@[simp] theorem goto_hId (s : State) (n : Nat) : (s.goto n).hId = s.hId := rfl
@[simp] theorem goto_hFlags (s : State) (n : Nat) : (s.goto n).hFlags = s.hFlags := rfl
@[simp] theorem goto_hQdAn (s : State) (n : Nat) : (s.goto n).hQdAn = s.hQdAn := rfl
@[simp] theorem goto_hNsAr (s : State) (n : Nat) : (s.goto n).hNsAr = s.hNsAr := rfl
@[simp] theorem goto_qTypeClass (s : State) (n : Nat) : (s.goto n).qTypeClass = s.qTypeClass := rfl
@[simp] theorem goto_qName (s : State) (n : Nat) : (s.goto n).qName = s.qName := rfl
@[simp] theorem goto_qOutLen (s : State) (n : Nat) : (s.goto n).qOutLen = s.qOutLen := rfl
@[simp] theorem goto_qEnd (s : State) (n : Nat) : (s.goto n).qEnd = s.qEnd := rfl
@[simp] theorem goto_mem (s : State) (n : Nat) : (s.goto n).mem = s.mem := rfl
@[simp] theorem goto_epoch (s : State) (n : Nat) : (s.goto n).epoch = s.epoch := rfl
@[simp] theorem goto_env (s : State) (n : Nat) : (s.goto n).env = { s.env with pc := n } := rfl

/-! ### owe -/

@[simp] theorem owe_ctrl (s : State) (l : List Access) : (s.owe l).ctrl = s.ctrl := rfl
@[simp] theorem owe_status (s : State) (l : List Access) : (s.owe l).status = s.status := rfl
@[simp] theorem owe_lastCmd (s : State) (l : List Access) : (s.owe l).lastCmd = s.lastCmd := rfl
@[simp] theorem owe_errInfo (s : State) (l : List Access) : (s.owe l).errInfo = s.errInfo := rfl
@[simp] theorem owe_inLen (s : State) (l : List Access) : (s.owe l).inLen = s.inLen := rfl
@[simp] theorem owe_outLen (s : State) (l : List Access) : (s.owe l).outLen = s.outLen := rfl
@[simp] theorem owe_polQdAn (s : State) (l : List Access) : (s.owe l).polQdAn = s.polQdAn := rfl
@[simp] theorem owe_polNsAr (s : State) (l : List Access) : (s.owe l).polNsAr = s.polNsAr := rfl
@[simp] theorem owe_hId (s : State) (l : List Access) : (s.owe l).hId = s.hId := rfl
@[simp] theorem owe_hFlags (s : State) (l : List Access) : (s.owe l).hFlags = s.hFlags := rfl
@[simp] theorem owe_hQdAn (s : State) (l : List Access) : (s.owe l).hQdAn = s.hQdAn := rfl
@[simp] theorem owe_hNsAr (s : State) (l : List Access) : (s.owe l).hNsAr = s.hNsAr := rfl
@[simp] theorem owe_qTypeClass (s : State) (l : List Access) : (s.owe l).qTypeClass = s.qTypeClass := rfl
@[simp] theorem owe_qName (s : State) (l : List Access) : (s.owe l).qName = s.qName := rfl
@[simp] theorem owe_qOutLen (s : State) (l : List Access) : (s.owe l).qOutLen = s.qOutLen := rfl
@[simp] theorem owe_qEnd (s : State) (l : List Access) : (s.owe l).qEnd = s.qEnd := rfl
@[simp] theorem owe_mem (s : State) (l : List Access) : (s.owe l).mem = s.mem := rfl
@[simp] theorem owe_epoch (s : State) (l : List Access) : (s.owe l).epoch = s.epoch := rfl
@[simp] theorem owe_env (s : State) (l : List Access) : (s.owe l).env = { s.env with pending := l } := rfl

/-! ### hdrEncodeBody -/

@[simp] theorem hdrEncodeBody_ctrl (s : State) : (hdrEncodeBody s).ctrl = s.ctrl := rfl
@[simp] theorem hdrEncodeBody_status (s : State) : (hdrEncodeBody s).status = s.status := rfl
@[simp] theorem hdrEncodeBody_lastCmd (s : State) : (hdrEncodeBody s).lastCmd = s.lastCmd := rfl
@[simp] theorem hdrEncodeBody_errInfo (s : State) : (hdrEncodeBody s).errInfo = s.errInfo := rfl
@[simp] theorem hdrEncodeBody_inLen (s : State) : (hdrEncodeBody s).inLen = s.inLen := rfl
@[simp] theorem hdrEncodeBody_outLen (s : State) : (hdrEncodeBody s).outLen = s.outLen := rfl
@[simp] theorem hdrEncodeBody_polQdAn (s : State) : (hdrEncodeBody s).polQdAn = s.polQdAn := rfl
@[simp] theorem hdrEncodeBody_polNsAr (s : State) : (hdrEncodeBody s).polNsAr = s.polNsAr := rfl
@[simp] theorem hdrEncodeBody_hId (s : State) : (hdrEncodeBody s).hId = s.hId := rfl
@[simp] theorem hdrEncodeBody_hFlags (s : State) : (hdrEncodeBody s).hFlags = s.hFlags := rfl
@[simp] theorem hdrEncodeBody_hQdAn (s : State) : (hdrEncodeBody s).hQdAn = s.hQdAn := rfl
@[simp] theorem hdrEncodeBody_hNsAr (s : State) : (hdrEncodeBody s).hNsAr = s.hNsAr := rfl
@[simp] theorem hdrEncodeBody_qTypeClass (s : State) : (hdrEncodeBody s).qTypeClass = s.qTypeClass := rfl
@[simp] theorem hdrEncodeBody_qName (s : State) : (hdrEncodeBody s).qName = s.qName := rfl
@[simp] theorem hdrEncodeBody_qOutLen (s : State) : (hdrEncodeBody s).qOutLen = s.qOutLen := rfl
@[simp] theorem hdrEncodeBody_qEnd (s : State) : (hdrEncodeBody s).qEnd = s.qEnd := rfl
@[simp] theorem hdrEncodeBody_mem (s : State) : (hdrEncodeBody s).mem = s.mem.putAll 0x800 (headerBytes s) := rfl
@[simp] theorem hdrEncodeBody_epoch (s : State) : (hdrEncodeBody s).epoch = s.epoch := rfl
@[simp] theorem hdrEncodeBody_env (s : State) : (hdrEncodeBody s).env = s.env := rfl

/-! ### composeBody -/

@[simp] theorem composeBody_ctrl (s : State) : (composeBody s).ctrl = s.ctrl := rfl
@[simp] theorem composeBody_status (s : State) : (composeBody s).status = { s.status with respValid := true } := rfl
@[simp] theorem composeBody_lastCmd (s : State) : (composeBody s).lastCmd = s.lastCmd := rfl
@[simp] theorem composeBody_errInfo (s : State) : (composeBody s).errInfo = s.errInfo := rfl
@[simp] theorem composeBody_inLen (s : State) : (composeBody s).inLen = s.inLen := rfl
@[simp] theorem composeBody_outLen (s : State) : (composeBody s).outLen = BitVec.ofNat 10 (12 + s.qOutLen.toNat) := rfl
@[simp] theorem composeBody_polQdAn (s : State) : (composeBody s).polQdAn = s.polQdAn := rfl
@[simp] theorem composeBody_polNsAr (s : State) : (composeBody s).polNsAr = s.polNsAr := rfl
@[simp] theorem composeBody_hId (s : State) : (composeBody s).hId = s.hId := rfl
@[simp] theorem composeBody_hFlags (s : State) : (composeBody s).hFlags = s.hFlags := rfl
@[simp] theorem composeBody_hQdAn (s : State) : (composeBody s).hQdAn = s.hQdAn := rfl
@[simp] theorem composeBody_hNsAr (s : State) : (composeBody s).hNsAr = s.hNsAr := rfl
@[simp] theorem composeBody_qTypeClass (s : State) : (composeBody s).qTypeClass = s.qTypeClass := rfl
@[simp] theorem composeBody_qName (s : State) : (composeBody s).qName = s.qName := rfl
@[simp] theorem composeBody_qOutLen (s : State) : (composeBody s).qOutLen = s.qOutLen := rfl
@[simp] theorem composeBody_qEnd (s : State) : (composeBody s).qEnd = s.qEnd := rfl
@[simp] theorem composeBody_mem (s : State) : (composeBody s).mem = s.mem := rfl
@[simp] theorem composeBody_epoch (s : State) : (composeBody s).epoch = s.epoch := rfl
@[simp] theorem composeBody_env (s : State) : (composeBody s).env = s.env := rfl

/-! ### qCommit -/

@[simp] theorem qCommit_ctrl (s : State) (c k : Nat) : (qCommit s c k).ctrl = s.ctrl := by
  simp only [qCommit, State.putBytes]
@[simp] theorem qCommit_status (s : State) (c k : Nat) : (qCommit s c k).status = s.status := by
  simp only [qCommit, State.putBytes]
@[simp] theorem qCommit_lastCmd (s : State) (c k : Nat) : (qCommit s c k).lastCmd = s.lastCmd := by
  simp only [qCommit, State.putBytes]
@[simp] theorem qCommit_errInfo (s : State) (c k : Nat) : (qCommit s c k).errInfo = s.errInfo := by
  simp only [qCommit, State.putBytes]
@[simp] theorem qCommit_inLen (s : State) (c k : Nat) : (qCommit s c k).inLen = s.inLen := by
  simp only [qCommit, State.putBytes]
@[simp] theorem qCommit_outLen (s : State) (c k : Nat) : (qCommit s c k).outLen = s.outLen := by
  simp only [qCommit, State.putBytes]
@[simp] theorem qCommit_polQdAn (s : State) (c k : Nat) : (qCommit s c k).polQdAn = s.polQdAn := by
  simp only [qCommit, State.putBytes]
@[simp] theorem qCommit_polNsAr (s : State) (c k : Nat) : (qCommit s c k).polNsAr = s.polNsAr := by
  simp only [qCommit, State.putBytes]
@[simp] theorem qCommit_hId (s : State) (c k : Nat) : (qCommit s c k).hId = s.hId := by
  simp only [qCommit, State.putBytes]
@[simp] theorem qCommit_hFlags (s : State) (c k : Nat) : (qCommit s c k).hFlags = s.hFlags := by
  simp only [qCommit, State.putBytes]
@[simp] theorem qCommit_hQdAn (s : State) (c k : Nat) : (qCommit s c k).hQdAn = s.hQdAn := by
  simp only [qCommit, State.putBytes]
@[simp] theorem qCommit_hNsAr (s : State) (c k : Nat) : (qCommit s c k).hNsAr = s.hNsAr := by
  simp only [qCommit, State.putBytes]
@[simp] theorem qCommit_qTypeClass (s : State) (c k : Nat) : (qCommit s c k).qTypeClass = packHalves (s.memRead2 .ibuf (c + 3)) (s.memRead2 .ibuf (c + 1)) := rfl
@[simp] theorem qCommit_qName (s : State) (c k : Nat) : (qCommit s c k).qName = ⟨BitVec.ofNat 9 (c + 1 - 12), BitVec.ofNat 8 k⟩ := rfl
@[simp] theorem qCommit_qOutLen (s : State) (c k : Nat) : (qCommit s c k).qOutLen = s.qOutLen := by
  simp only [qCommit, State.putBytes]
@[simp] theorem qCommit_qEnd (s : State) (c k : Nat) : (qCommit s c k).qEnd = BitVec.ofNat 10 (c + 5) := rfl
@[simp] theorem qCommit_mem (s : State) (c k : Nat) : (qCommit s c k).mem = s.mem.putAll 0x600 (s.bytes .ibuf 12 (c + 1 - 12)) := rfl
@[simp] theorem qCommit_epoch (s : State) (c k : Nat) : (qCommit s c k).epoch = s.epoch := by
  simp only [qCommit, State.putBytes]
@[simp] theorem qCommit_env (s : State) (c k : Nat) : (qCommit s c k).env = s.env := by
  simp only [qCommit, State.putBytes]

/-! ### qEncodeBody -/

@[simp] theorem qEncodeBody_ctrl (s : State) : (qEncodeBody s).ctrl = s.ctrl := by
  simp only [qEncodeBody, State.putBytes]
@[simp] theorem qEncodeBody_status (s : State) : (qEncodeBody s).status = s.status := by
  simp only [qEncodeBody, State.putBytes]
@[simp] theorem qEncodeBody_lastCmd (s : State) : (qEncodeBody s).lastCmd = s.lastCmd := by
  simp only [qEncodeBody, State.putBytes]
@[simp] theorem qEncodeBody_errInfo (s : State) : (qEncodeBody s).errInfo = s.errInfo := by
  simp only [qEncodeBody, State.putBytes]
@[simp] theorem qEncodeBody_inLen (s : State) : (qEncodeBody s).inLen = s.inLen := by
  simp only [qEncodeBody, State.putBytes]
@[simp] theorem qEncodeBody_outLen (s : State) : (qEncodeBody s).outLen = s.outLen := by
  simp only [qEncodeBody, State.putBytes]
@[simp] theorem qEncodeBody_polQdAn (s : State) : (qEncodeBody s).polQdAn = s.polQdAn := by
  simp only [qEncodeBody, State.putBytes]
@[simp] theorem qEncodeBody_polNsAr (s : State) : (qEncodeBody s).polNsAr = s.polNsAr := by
  simp only [qEncodeBody, State.putBytes]
@[simp] theorem qEncodeBody_hId (s : State) : (qEncodeBody s).hId = s.hId := by
  simp only [qEncodeBody, State.putBytes]
@[simp] theorem qEncodeBody_hFlags (s : State) : (qEncodeBody s).hFlags = s.hFlags := by
  simp only [qEncodeBody, State.putBytes]
@[simp] theorem qEncodeBody_hQdAn (s : State) : (qEncodeBody s).hQdAn = s.hQdAn := by
  simp only [qEncodeBody, State.putBytes]
@[simp] theorem qEncodeBody_hNsAr (s : State) : (qEncodeBody s).hNsAr = s.hNsAr := by
  simp only [qEncodeBody, State.putBytes]
@[simp] theorem qEncodeBody_qTypeClass (s : State) : (qEncodeBody s).qTypeClass = s.qTypeClass := by
  simp only [qEncodeBody, State.putBytes]
@[simp] theorem qEncodeBody_qName (s : State) : (qEncodeBody s).qName = s.qName := by
  simp only [qEncodeBody, State.putBytes]
@[simp] theorem qEncodeBody_qOutLen (s : State) : (qEncodeBody s).qOutLen = BitVec.ofNat 10 (s.nameLen + 4) := rfl
@[simp] theorem qEncodeBody_qEnd (s : State) : (qEncodeBody s).qEnd = s.qEnd := by
  simp only [qEncodeBody, State.putBytes]
@[simp] theorem qEncodeBody_mem (s : State) : (qEncodeBody s).mem = s.mem.putAll 0x80C (questionBytes s) := rfl
@[simp] theorem qEncodeBody_epoch (s : State) : (qEncodeBody s).epoch = s.epoch := by
  simp only [qEncodeBody, State.putBytes]
@[simp] theorem qEncodeBody_env (s : State) : (qEncodeBody s).env = s.env := by
  simp only [qEncodeBody, State.putBytes]

/-! ### clearBody -/

@[simp] theorem clearBody_ctrl (s : State) : (clearBody s).ctrl = s.ctrl := rfl
@[simp] theorem clearBody_status (s : State) : (clearBody s).status = s.status := rfl
@[simp] theorem clearBody_lastCmd (s : State) : (clearBody s).lastCmd = s.lastCmd := rfl
@[simp] theorem clearBody_errInfo (s : State) : (clearBody s).errInfo = s.errInfo := rfl
@[simp] theorem clearBody_inLen (s : State) : (clearBody s).inLen = s.inLen := rfl
@[simp] theorem clearBody_outLen (s : State) : (clearBody s).outLen = s.outLen := rfl
@[simp] theorem clearBody_polQdAn (s : State) : (clearBody s).polQdAn = s.polQdAn := rfl
@[simp] theorem clearBody_polNsAr (s : State) : (clearBody s).polNsAr = s.polNsAr := rfl
@[simp] theorem clearBody_hId (s : State) : (clearBody s).hId = 0 := rfl
@[simp] theorem clearBody_hFlags (s : State) : (clearBody s).hFlags = 0 := rfl
@[simp] theorem clearBody_hQdAn (s : State) : (clearBody s).hQdAn = 0 := rfl
@[simp] theorem clearBody_hNsAr (s : State) : (clearBody s).hNsAr = 0 := rfl
@[simp] theorem clearBody_qTypeClass (s : State) : (clearBody s).qTypeClass = 0 := rfl
@[simp] theorem clearBody_qName (s : State) : (clearBody s).qName = ⟨0, 0⟩ := rfl
@[simp] theorem clearBody_qOutLen (s : State) : (clearBody s).qOutLen = 0 := rfl
@[simp] theorem clearBody_qEnd (s : State) : (clearBody s).qEnd = 0 := rfl
@[simp] theorem clearBody_mem (s : State) : (clearBody s).mem = s.mem := rfl
@[simp] theorem clearBody_epoch (s : State) : (clearBody s).epoch = s.epoch := rfl
@[simp] theorem clearBody_env (s : State) : (clearBody s).env = s.env := rfl

end Sys2Proof.Machine
end

