-- ==== Sys2Proof/Laws/Memory.lean ====
section
/-! SUPPORT. Reading, writing and copying bytes: read after write, the canonical form, and what a 16-bit write and a copy leave. -/

namespace Sys2Proof.Machine

@[simp] theorem find_put_same (m : Memory) (a : Nat) (b : Byte) : (m.put a b).find a = some b := by
  induction m with
  | nil => simp [Memory.put, Memory.find]
  | cons c m ih =>
    obtain ⟨k, v⟩ := c
    simp only [Memory.put]
    split
    · simp [Memory.find]
    · split
      · simp [Memory.find]
      · simp [Memory.find, *]

theorem find_put_other (m : Memory) (a a' : Nat) (b : Byte) (h : a' ≠ a) :
    (m.put a b).find a' = m.find a' := by
  induction m with
  | nil => simp [Memory.put, Memory.find, h]
  | cons c m ih =>
    obtain ⟨k, v⟩ := c
    simp only [Memory.put]
    split
    · simp [Memory.find, h]
    · split
      · subst_vars
        simp [Memory.find, h]
      · simp [Memory.find, ih]

/-- What a lower bound of the listed addresses becomes under `put`. -/
theorem all_lt_put (m : Memory) (k a : Nat) (b : Byte) (hk : k < a)
    (h : m.all (fun c => decide (k < c.1)) = true) : (m.put a b).all (fun c => decide (k < c.1)) = true := by
  induction m with
  | nil => simp [Memory.put, hk]
  | cons c m ih =>
    obtain ⟨j, v⟩ := c
    simp only [List.all_cons, Bool.and_eq_true, decide_eq_true_eq] at h
    simp only [Memory.put]
    split
    · simp only [List.all_cons, Bool.and_eq_true, decide_eq_true_eq]
      exact ⟨hk, h⟩
    · split
      · simp only [List.all_cons, Bool.and_eq_true, decide_eq_true_eq]
        exact ⟨hk, h.2⟩
      · simp only [List.all_cons, Bool.and_eq_true, decide_eq_true_eq]
        exact ⟨h.1, ih h.2⟩

theorem sorted_put (m : Memory) (a : Nat) (b : Byte) (h : m.sorted = true) : (m.put a b).sorted = true := by
  induction m with
  | nil => simp [Memory.put, Memory.sorted]
  | cons c m ih =>
    obtain ⟨k, v⟩ := c
    simp only [Memory.sorted, Bool.and_eq_true] at h
    simp only [Memory.put]
    split
    · rename_i hlt
      simp only [Memory.sorted, List.all_cons, Bool.and_eq_true, decide_eq_true_eq]
      refine ⟨⟨hlt, ?_⟩, h.1, h.2⟩
      simp only [List.all_eq_true, decide_eq_true_eq] at h ⊢
      intro x hx
      exact lt_trans hlt (h.1 x hx)
    · split
      · subst_vars
        simp [Memory.sorted, h]
      · simp only [Memory.sorted, Bool.and_eq_true]
        exact ⟨all_lt_put m k a b (by omega) h.1, ih h.2⟩

theorem all_isBufAddr_put (m : Memory) (a : Nat) (b : Byte) (ha : isBufAddr a = true)
    (h : m.all (fun c => isBufAddr c.1) = true) : (m.put a b).all (fun c => isBufAddr c.1) = true := by
  induction m with
  | nil => simp [Memory.put, ha]
  | cons c m ih =>
    obtain ⟨k, v⟩ := c
    simp only [List.all_cons, Bool.and_eq_true] at h
    simp only [Memory.put]
    split
    · simp [ha, h]
    · split
      · simp [ha, h]
      · simp [h.1, ih h.2]

/-- A write at a buffer byte's address keeps the canonical form. -/
theorem wf_put (m : Memory) (a : Nat) (b : Byte) (ha : isBufAddr a = true) (h : m.wf = true) :
    (m.put a b).wf = true := by
  simp only [Memory.wf, Bool.and_eq_true] at *
  exact ⟨sorted_put m a b h.1, all_isBufAddr_put m a b ha h.2⟩

/-- Reading after a run of writes at rising addresses. -/
theorem putAll_find (bs : List Byte) : ∀ (m : Memory) (a x : Nat),
    (m.putAll a bs).find x = if a ≤ x then (bs[x - a]?).or (m.find x) else m.find x := by
  induction bs with
  | nil => intro m a x; simp [Memory.putAll]
  | cons b bs ih =>
    intro m a x
    rw [Memory.putAll, ih]
    rcases Nat.lt_trichotomy x a with h | h | h
    · rw [if_neg (by omega), if_neg (by omega), find_put_other _ _ _ _ (by omega)]
    · subst h
      rw [if_neg (by omega), if_pos (le_refl _)]
      simp
    · rw [if_pos (by omega), if_pos (by omega), find_put_other _ _ _ _ (by omega)]
      obtain ⟨d, rfl⟩ : ∃ d, x = a + 1 + d := ⟨x - (a + 1), by omega⟩
      rw [show a + 1 + d - (a + 1) = d by omega, show a + 1 + d - a = d + 1 by omega, List.getElem?_cons_succ]

/-! ### Bytes -/

@[simp] theorem byteAt_putByte_same (s : State) (a : Nat) (b : Byte) : (s.putByte a b).byteAt a = b := by
  simp [State.byteAt]

theorem byteAt_putByte_other (s : State) (a a' : Nat) (b : Byte) (h : a' ≠ a) :
    (s.putByte a b).byteAt a' = s.byteAt a' := by
  simp [State.byteAt, find_put_other _ _ _ _ h]

theorem byteAt_putByte (s : State) (a a' : Nat) (b : Byte) :
    (s.putByte a b).byteAt a' = if a' = a then b else s.byteAt a' := by
  split
  · subst_vars; simp
  · exact byteAt_putByte_other s a a' b ‹_›

theorem byteAt_setBuf (s : State) (b : Buf) (i a : Nat) (v : Byte) :
    (s.setBuf b i v).byteAt a = if a = b.base + i then v else s.byteAt a :=
  byteAt_putByte s _ a v

/-- Everything a run of writes does to the bytes: the range holds the list, the rest is as before. -/
theorem byteAt_putBytes (s : State) (b : Buf) (i : Nat) (bs : List Byte) (a : Nat) :
    (s.putBytes b i bs).byteAt a =
      if b.base + i ≤ a then (bs[a - (b.base + i)]?).getD (s.byteAt a) else s.byteAt a := by
  simp only [State.putBytes, State.byteAt, putAll_find]
  split
  · cases bs[a - (b.base + i)]? <;> rfl
  · rfl

theorem byteAt_putBytes_inside (s : State) (b : Buf) (i k : Nat) (bs : List Byte) (h : k < bs.length) :
    (s.putBytes b i bs).byteAt (b.base + i + k) = bs[k] := by
  rw [byteAt_putBytes, if_pos (by omega), Nat.add_sub_cancel_left, List.getElem?_eq_getElem h, Option.getD_some]

theorem byteAt_putBytes_outside (s : State) (b : Buf) (i a : Nat) (bs : List Byte)
    (h : ¬ (b.base + i ≤ a ∧ a < b.base + i + bs.length)) :
    (s.putBytes b i bs).byteAt a = s.byteAt a := by
  rw [byteAt_putBytes]
  split
  · rw [List.getElem?_eq_none (by omega), Option.getD_none]
  · rfl

@[simp] theorem bytes_length (s : State) (b : Buf) (i n : Nat) : (s.bytes b i n).length = n := by
  simp [State.bytes]

@[simp] theorem bytes_getElem (s : State) (b : Buf) (i n k : Nat) (h : k < (s.bytes b i n).length) :
    (s.bytes b i n)[k] = s.buf b (i + k) := by
  simp [State.bytes]

@[simp] theorem wireBytes_length (v : Half) : (wireBytes v).length = 2 := rfl

/-- The bytes depend on the memory and the epoch alone. -/
theorem byteAt_congr {s t : State} (hm : t.mem = s.mem) (he : t.epoch = s.epoch) (a : Nat) :
    t.byteAt a = s.byteAt a := by
  simp [State.byteAt, hm, he]

theorem buf_congr {s t : State} (hm : t.mem = s.mem) (he : t.epoch = s.epoch) (b : Buf) (i : Nat) :
    t.buf b i = s.buf b i := byteAt_congr hm he _

@[simp] theorem byteAt_dropResponse (s : State) (a : Nat) : s.dropResponse.byteAt a = s.byteAt a := rfl
@[simp] theorem byteAt_complete (s : State) (a : Nat) : s.complete.byteAt a = s.byteAt a := rfl
@[simp] theorem byteAt_fail (s : State) (e : CmdError) (a : Nat) : (s.fail e).byteAt a = s.byteAt a := rfl
@[simp] theorem byteAt_accept (s : State) (w : Word) (a : Nat) : (s.accept w).byteAt a = s.byteAt a := rfl
@[simp] theorem byteAt_composeBody (s : State) (a : Nat) : (composeBody s).byteAt a = s.byteAt a := rfl
@[simp] theorem byteAt_clearBody (s : State) (a : Nat) : (clearBody s).byteAt a = s.byteAt a := rfl
@[simp] theorem byteAt_setHeader (s : State) (i f q n r t : Half) (a : Nat) :
    (s.setHeader i f q n r t).byteAt a = s.byteAt a := rfl

/-! ### The canonical form under the operations -/

theorem wf_putAll (bs : List Byte) : ∀ (m : Memory) (a : Nat),
    (∀ k, k < bs.length → isBufAddr (a + k) = true) → m.wf = true → (m.putAll a bs).wf = true := by
  induction bs with
  | nil => intro m a _ h; exact h
  | cons b bs ih =>
    intro m a ha h
    refine ih _ _ (fun k hk => ?_) (wf_put m a b (ha 0 (by simp)) h)
    have := ha (k + 1) (by simpa using hk)
    rwa [Nat.add_comm k, ← Nat.add_assoc] at this

/-! ### 16-bit fields -/

theorem getLsbD_be16 (h l : Byte) (j : Nat) :
    (be16 h l).getLsbD j = if j < 8 then l.getLsbD j else h.getLsbD (j - 8) := BitVec.getLsbD_append

theorem getLsbD_packHalves (h l : Half) (j : Nat) :
    (packHalves h l).getLsbD j = if j < 16 then l.getLsbD j else h.getLsbD (j - 16) := BitVec.getLsbD_append

@[simp] theorem hi8_be16 (h l : Byte) : hi8 (be16 h l) = h := by
  apply BitVec.eq_of_getLsbD_eq
  intro i hi
  simp [hi8, BitVec.getLsbD_extractLsb', getLsbD_be16]
  intro; omega

@[simp] theorem lo8_be16 (h l : Byte) : lo8 (be16 h l) = l := by
  apply BitVec.eq_of_getLsbD_eq
  intro i hi
  simp [lo8, getLsbD_be16, hi]

@[simp] theorem be16_hi8_lo8 (v : Half) : be16 (hi8 v) (lo8 v) = v := by
  apply BitVec.eq_of_getLsbD_eq
  intro i hi
  rw [getLsbD_be16]
  simp [hi8, lo8, BitVec.getLsbD_extractLsb']
  split
  · simp_all
  · rw [show 8 + (i - 8) = i by omega]; simp; omega

@[simp] theorem lowHalf_packHalves (h l : Half) : lowHalf (packHalves h l) = l := by
  apply BitVec.eq_of_getLsbD_eq
  intro i hi
  simp [lowHalf, getLsbD_packHalves, hi]

@[simp] theorem highHalf_packHalves (h l : Half) : highHalf (packHalves h l) = h := by
  apply BitVec.eq_of_getLsbD_eq
  intro i hi
  simp [highHalf, BitVec.getLsbD_extractLsb', getLsbD_packHalves]
  intro; omega

end Sys2Proof.Machine
end

