-- ==== Sys2Proof/Laws/Bus.lean ====
section
/-! SUPPORT. The host bus: what an access changes, the map, and the register words as numbers. -/

namespace Sys2Proof.Machine

/-! ### The four turns as steps -/

theorem accessStep_eq (s : State) (a : Access) : accessStep s a = .next (s.perform a) := rfl
theorem engineStep_eq (s : State) : engineStep s = engineTurn s := rfl
theorem hostStep_eq (s : State) : hostStep s = hostTurn s := rfl
theorem rstStep_eq (s : State) : rstStep s = .next s.rst := rfl

/-! ### The map -/

@[simp] theorem ofOffset_offset (r : Reg) : Reg.ofOffset r.offset = some r := by cases r <;> rfl

theorem ofOffset_some {n : Nat} {r : Reg} (h : Reg.ofOffset n = some r) : n = r.offset ∧ n % 4 = 0 ∧ n < 0x40 := by
  unfold Reg.ofOffset at h
  split at h
  all_goals first
    | (injection h with h; subst h; exact ⟨rfl, rfl, by omega⟩)
    | cases h

/-- No register from 0x040 up. -/
theorem ofOffset_none {n : Nat} (h : 0x40 ≤ n) : Reg.ofOffset n = none := by
  cases hr : Reg.ofOffset n with
  | none => rfl
  | some r => have := (ofOffset_some hr).2.2; omega

theorem placeOf_reg (r : Reg) : placeOf (BitVec.ofNat 12 r.offset) = .reg r := by cases r <;> rfl

theorem legalAccess_reg (r : Reg) : legalAccess .w32 (BitVec.ofNat 12 r.offset) = true := by cases r <;> rfl

theorem legalAccess_iff (w : BusWidth) (a : WinAddr) :
    legalAccess w a = true ↔
      (a.toNat < 0x400 ∧ w = .w32 ∧ a.toNat % 4 = 0) ∨ (0x400 ≤ a.toNat ∧ w = .w8) := by
  unfold legalAccess
  split
  · rename_i h
    simp only [decide_eq_true_eq]
    constructor
    · rintro ⟨rfl, h2⟩; exact .inl ⟨h, rfl, h2⟩
    · rintro (⟨-, h2⟩ | ⟨h2, -⟩)
      · exact h2
      · omega
  · simp only [decide_eq_true_eq]
    constructor
    · intro h2; exact .inr ⟨by omega, h2⟩
    · rintro (⟨h2, -⟩ | ⟨-, h2⟩)
      · omega
      · exact h2

/-- A reserved register offset. -/
theorem placeOf_reserved_reg {a : WinAddr} (h1 : 0x40 ≤ a.toNat) (h2 : a.toNat < 0x400) : placeOf a = .reserved := by
  unfold placeOf
  rw [if_pos h2, ofOffset_none h1]

theorem placeOf_ibuf {a : WinAddr} (h1 : 0x400 ≤ a.toNat) (h2 : a.toNat < 0x600) :
    placeOf a = .byte .ibuf (a.toNat - 0x400) := by
  unfold placeOf
  rw [if_neg (by omega), if_pos h2]

theorem placeOf_nbuf {a : WinAddr} (h1 : 0x600 ≤ a.toNat) (h2 : a.toNat < 0x7F0) :
    placeOf a = .byte .nbuf (a.toNat - 0x600) := by
  unfold placeOf
  rw [if_neg (by omega), if_neg (by omega), if_pos h2]

theorem placeOf_obuf {a : WinAddr} (h1 : 0x800 ≤ a.toNat) (h2 : a.toNat < 0xA00) :
    placeOf a = .byte .obuf (a.toNat - 0x800) := by
  unfold placeOf
  rw [if_neg (by omega), if_neg (by omega), if_neg (by omega), if_neg (by omega), if_pos h2]

theorem placeOf_reserved_buf {a : WinAddr} (h : (0x7F0 ≤ a.toNat ∧ a.toNat < 0x800) ∨ 0xA00 ≤ a.toNat) :
    placeOf a = .reserved := by
  unfold placeOf
  rcases h with ⟨h1, h2⟩ | h1
  · rw [if_neg (by omega), if_neg (by omega), if_neg (by omega), if_pos h2]
  · rw [if_neg (by omega), if_neg (by omega), if_neg (by omega), if_neg (by omega), if_neg (by omega)]

/-! ### What an access does -/

theorem perform_read_legal (s : State) {w : BusWidth} {a : WinAddr} (h : legalAccess w a = true) :
    s.perform (.read w a) = { s with env := s.env.saw (.read w a) (s.readPlace (placeOf a)) } := by
  simp [State.perform, State.bus, State.busRead, h, Env.saw]

theorem perform_read_refused (s : State) {w : BusWidth} {a : WinAddr} (h : legalAccess w a = false) :
    s.perform (.read w a) =
      { s with status := { s.status with berr := true }, env := s.env.saw (.read w a) 0 } := by
  simp [State.perform, State.bus, State.busRead, h, Env.saw, State.setBerr]

theorem perform_write_busy (s : State) {w : BusWidth} {a : WinAddr} (v : Word) (hb : s.status.busy = true) :
    s.perform (.write w a v) =
      { s with
        status := { s.status with werr := true, berr := s.status.berr || !legalAccess w a }
        env := s.env.saw (.write w a v) 0 } := by
  cases h : legalAccess w a <;>
    simp [State.perform, State.bus, State.busWrite, h, hb, Env.saw, State.setBerr, State.setWerr]

theorem perform_write_refused (s : State) {w : BusWidth} {a : WinAddr} (v : Word) (hb : s.status.busy = false)
    (h : legalAccess w a = false) :
    s.perform (.write w a v) =
      { s with status := { s.status with berr := true }, env := s.env.saw (.write w a v) 0 } := by
  simp [State.perform, State.bus, State.busWrite, h, hb, Env.saw, State.setBerr]

theorem writePlace_env (s : State) (v : Word) (p : Place) : (s.writePlace v p).env = s.env := by
  rcases p with r | ⟨b, i⟩ | _
  · cases r <;> rfl
  · cases b <;> rfl
  · rfl

theorem perform_write_legal (s : State) {w : BusWidth} {a : WinAddr} (v : Word) (hb : s.status.busy = false)
    (h : legalAccess w a = true) :
    s.perform (.write w a v) =
      { s.writePlace v (placeOf a) with env := s.env.saw (.write w a v) 0 } := by
  simp [State.perform, State.bus, State.busWrite, h, hb, Env.saw, writePlace_env]

/-- An access leaves the schedule, the program and the host's place in it alone. -/
theorem perform_env (s : State) (a : Access) :
    (s.perform a).env = s.env.saw a (s.bus a).1 := by
  rcases a with ⟨w, a⟩ | ⟨w, a, v⟩
  · cases h : legalAccess w a
    · simp [perform_read_refused s h, State.bus, State.busRead, h]
    · simp [perform_read_legal s h, State.bus, State.busRead, h]
  · cases hb : s.status.busy
    · cases h : legalAccess w a
      · simp [perform_write_refused s v hb h, State.bus]
      · simp [perform_write_legal s v hb h, State.bus]
    · simp [perform_write_busy s v hb, State.bus]

/-- An access changes neither RESP_VALID nor OUT_LEN (42_control.md R197, R201(e)). -/
theorem perform_response (s : State) (a : Access) :
    (s.perform a).status.respValid = s.status.respValid ∧ (s.perform a).outLen = s.outLen := by
  rcases a with ⟨w, a⟩ | ⟨w, a, v⟩
  · cases h : legalAccess w a
    · simp [perform_read_refused s h]
    · simp [perform_read_legal s h]
  · cases hb : s.status.busy
    · cases h : legalAccess w a
      · simp [perform_write_refused s v hb h]
      · rw [perform_write_legal s v hb h]
        rcases placeOf a with r | ⟨b, i⟩ | _
        · cases r <;> exact ⟨rfl, rfl⟩
        · cases b <;> exact ⟨rfl, rfl⟩
        · exact ⟨rfl, rfl⟩
    · simp [perform_write_busy s v hb]

/-- While a command is latched an access changes WERR, BERR and the trace only (42_control.md R199). -/
theorem perform_busy (s : State) (a : Access) (hb : s.status.busy = true) :
    s.perform a = { s with
      status := { s.status with
        werr := s.status.werr || a.isWrite, berr := s.status.berr || !a.isLegal }
      env := s.env.saw a (s.bus a).1 } := by
  rcases a with ⟨w, a⟩ | ⟨w, a, v⟩
  · cases h : legalAccess w a
    · rw [perform_read_refused s h]
      simp [Access.isWrite, Access.isLegal, h, State.bus, State.busRead]
    · rw [perform_read_legal s h]
      simp [Access.isWrite, Access.isLegal, h, State.bus, State.busRead]
  · rw [perform_write_busy s v hb]
    simp [Access.isWrite, Access.isLegal, State.bus]

/-! ### Register words as numbers -/

theorem toNat_append {m n : Nat} (x : BitVec m) (y : BitVec n) : (x ++ y).toNat = x.toNat * 2 ^ n + y.toNat := by
  rw [BitVec.toNat_append, Nat.shiftLeft_eq, mul_comm, ← Nat.two_pow_add_eq_or_of_lt y.isLt]

end Sys2Proof.Machine
end

