-- ==== Sys2Proof/Laws/Walk.lean ====
section
/-! SUPPORT. The label walk: what each check says, what a walk that ends says, and that the passes never run out (41_question_codec.md R152 to R165). -/

namespace Sys2Proof.Machine

/-- A label passes the checks exactly when it fits. -/
theorem checkLabel_none_iff (s : State) (c l : Nat) :
    checkLabel s.strict s.len c l = none ↔ LabelFits s c l := by
  unfold checkLabel LabelFits
  simp only [Config.strictLabel, Config.strictName, Config.qOff]
  split
  · rename_i h
    simp only [reduceCtorEq, false_iff, not_and]
    intro _ hf
    have := hf h.1
    omega
  · split
    · rename_i h
      simp only [reduceCtorEq, false_iff, not_and]
      intro _ hf
      have := hf h.1
      omega
    · rename_i h1 h2
      split
      · simp only [reduceCtorEq, false_iff, not_and]
        intro _ _
        omega
      · simp only [true_iff]
        refine ⟨by omega, fun h => ⟨?_, ?_⟩⟩
        · by_contra h'
          exact h1 ⟨h, by omega⟩
        · by_contra h'
          exact h2 ⟨h, by omega⟩

/-- Every check that fails is MALFORMED_QUESTION, at the cursor or at LEN. -/
theorem checkLabel_some (s : State) (c l : Nat) (e : CmdError) (h : checkLabel s.strict s.len c l = some e) :
    e = .malformed c ∨ e = .malformed s.len := by
  unfold checkLabel at h
  split at h
  · exact .inl (by simpa using h.symm)
  · split at h
    · exact .inl (by simpa using h.symm)
    · split at h
      · exact .inr (by simpa using h.symm)
      · cases h

/-- A STRICT limit fails at the cursor, before the overrun (41_question_codec.md R162). -/
theorem checkLabel_strict (s : State) (c l : Nat) (hs : s.strict = true)
    (h : 0x40 ≤ l ∨ 255 < (c - 12) + 1 + l + 1) : checkLabel s.strict s.len c l = some (.malformed c) := by
  unfold checkLabel
  simp only [Config.strictLabel, Config.strictName, Config.qOff]
  split
  · rfl
  · rename_i hl
    rw [if_pos ⟨hs, by rcases h with h | h; exacts [absurd ⟨hs, h⟩ hl, by omega]⟩]
/-- An overrun fails at LEN when the STRICT limits hold (41_question_codec.md R157). -/
theorem checkLabel_overrun (s : State) (c l : Nat)
    (hs : s.strict = true → l < 0x40 ∧ (c - 12) + 1 + l + 1 ≤ 255) (h : s.len ≤ c + 1 + l) :
    checkLabel s.strict s.len c l = some (.malformed s.len) := by
  unfold checkLabel
  simp only [Config.strictLabel, Config.strictName, Config.qOff]
  rw [if_neg (fun ⟨a, b⟩ => by have := hs a; omega), if_neg (fun ⟨a, b⟩ => by have := hs a; omega), if_pos h]

/-! ### Walked -/

/-- A walk moves the cursor up by at least 2 a label. -/
theorem Walked.le {s : State} : ∀ {ls : List Nat} {c e : Nat}, Walked s c ls e → c + 2 * ls.length ≤ e
  | [], c, e, h => by simp only [Walked] at h; simp [h]
  | l :: ls, c, e, h => by
    have := Walked.le h.2.2.2
    have := h.2.1
    simp only [List.length_cons]
    omega

/-- A walk over at least one label ends below LEN. -/
theorem Walked.lt_len {s : State} : ∀ {ls : List Nat} {c e : Nat}, Walked s c ls e → ls ≠ [] → e < s.len
  | [l], c, e, h, _ => by
    have h1 := h.2.2.1.1
    have h2 : e = c + 1 + l := h.2.2.2
    omega
  | l :: m :: ls, c, e, h, _ => Walked.lt_len h.2.2.2 (by simp)

/-- Two walks one after the other. -/
theorem Walked.append {s : State} : ∀ {ls ms : List Nat} {c d e : Nat},
    Walked s c ls d → Walked s d ms e → Walked s c (ls ++ ms) e
  | [], ms, c, d, e, h, k => by simp only [Walked] at h; subst h; exact k
  | l :: ls, ms, c, d, e, h, k => ⟨h.1, h.2.1, h.2.2.1, Walked.append h.2.2.2 k⟩

/-- Two walks to terminators from one cursor are one walk. -/
theorem Walked.unique {s : State} : ∀ {ls ms : List Nat} {c d e : Nat},
    Walked s c ls d → s.lengthAt d = 0 → Walked s c ms e → s.lengthAt e = 0 → ls = ms ∧ d = e
  | [], [], c, d, e, h, _, k, _ => by simp only [Walked] at h k; exact ⟨rfl, by omega⟩
  | [], m :: ms, c, d, e, h, hd, k, _ => by
    simp only [Walked] at h; subst h
    have h1 := k.1
    have h2 := k.2.1
    omega
  | l :: ls, [], c, d, e, h, _, k, he => by
    simp only [Walked] at k; subst k
    have h1 := h.1
    have h2 := h.2.1
    omega
  | l :: ls, m :: ms, c, d, e, h, hd, k, he => by
    have hlm : l = m := h.1.symm.trans k.1
    subst hlm
    obtain ⟨h1, h2⟩ := Walked.unique h.2.2.2 hd k.2.2.2 he
    exact ⟨by rw [h1], h2⟩

/-! ### The CHAIN walk -/

/-- The walk runs through labels that fit. -/
theorem walkChain_walked {s : State} : ∀ {ls : List Nat} {c d : Nat}, Walked s c ls d → ∀ (f k : Nat),
    walkChain s (f + ls.length) c k = walkChain s f d (k + ls.length)
  | [], c, d, h, f, k => by simp only [Walked] at h; subst h; rfl
  | l :: ls, c, d, h, f, k => by
    obtain ⟨h1, h2, h3, h4⟩ := h
    rw [List.length_cons, ← Nat.add_assoc, walkChain, if_neg (by omega), h1,
      (checkLabel_none_iff s c l).2 h3]
    simp only
    rw [walkChain_walked h4]
    congr 1
    omega

/-- A walk that reaches a terminator ran over labels that fit (41_question_codec.md R155). -/
theorem walkChain_ok {s : State} : ∀ (f c k e n : Nat), walkChain s f c k = .ok (e, n) →
    ∃ ls, Walked s c ls e ∧ s.lengthAt e = 0 ∧ n = k + ls.length
  | 0, c, k, e, n, h => by simp [walkChain] at h
  | f + 1, c, k, e, n, h => by
    rw [walkChain] at h
    split at h
    · injection h with h
      injection h with h1 h2
      subst h1 h2
      exact ⟨[], rfl, ‹_›, rfl⟩
    · split at h
      · cases h
      · obtain ⟨ls, h1, h2, h3⟩ := walkChain_ok f _ _ _ _ h
        refine ⟨s.lengthAt c :: ls, ⟨rfl, by omega, (checkLabel_none_iff _ _ _).1 ‹_›, h1⟩, h2, ?_⟩
        rw [List.length_cons]
        omega

/-- A walk that raises, with passes enough for LEN, stopped at a label that does not fit. -/
theorem walkChain_error {s : State} : ∀ (f c k : Nat) (x : CmdError), c < s.len → s.len ≤ f + c →
    walkChain s f c k = .error x →
    ∃ ls d, Walked s c ls d ∧ s.lengthAt d ≠ 0 ∧ checkLabel s.strict s.len d (s.lengthAt d) = some x
  | 0, c, k, x, hc, hf, _ => by omega
  | f + 1, c, k, x, hc, hf, h => by
    rw [walkChain] at h
    split at h
    · cases h
    · split at h
      · injection h with h
        subst h
        exact ⟨[], c, rfl, ‹_›, ‹_›⟩
      · have hfit := (checkLabel_none_iff _ _ _).1 ‹_›
        obtain ⟨ls, d, h1, h2, h3⟩ := walkChain_error f _ _ x hfit.1 (by omega) h
        exact ⟨_ :: ls, d, ⟨rfl, by omega, hfit, h1⟩, h2, h3⟩

/-! ### The TWO_LABEL walk -/

theorem twoLabelPass_ok {s : State} {c d : Nat} (h : twoLabelPass s c = .ok d) :
    Walked s c [s.lengthAt c] d := by
  unfold twoLabelPass at h
  split at h
  · cases h
  · split at h
    · cases h
    · injection h with h
      exact ⟨rfl, by omega, (checkLabel_none_iff _ _ _).1 ‹_›, h.symm⟩

theorem twoLabelPass_walked {s : State} {c d l : Nat} (h : Walked s c [l] d) : twoLabelPass s c = .ok d := by
  obtain ⟨h1, h2, h3, h4⟩ := h
  unfold twoLabelPass
  rw [if_neg (by omega), h1, (checkLabel_none_iff s c l).2 h3]
  simp only [Walked] at h4
  rw [h4]

theorem twoLabelPass_error {s : State} {c : Nat} {x : CmdError} (h : twoLabelPass s c = .error x) :
    (s.lengthAt c = 0 ∧ x = .malformed c) ∨
    (s.lengthAt c ≠ 0 ∧ checkLabel s.strict s.len c (s.lengthAt c) = some x) := by
  unfold twoLabelPass at h
  split at h
  · injection h with h
    exact .inl ⟨‹_›, h.symm⟩
  · split at h
    · injection h with h
      subst h
      exact .inr ⟨‹_›, ‹_›⟩
    · cases h

/-! ### Either walk -/

/-- A walk succeeds exactly over labels that fit, two of them in TWO_LABEL, up to a terminator. In CHAIN
the passes suffice because the walk starts below LEN. -/
theorem walk_ok_iff (s : State) (hlen : 13 ≤ s.len) (e n : Nat) :
    walk s = .ok (e, n) ↔
      ∃ ls, Walked s 12 ls e ∧ s.lengthAt e = 0 ∧ n = ls.length ∧ (s.twoLabel = true → ls.length = 2) := by
  unfold walk
  by_cases ht : s.twoLabel = true
  · rw [if_pos ht]
    constructor
    · intro h
      unfold walkTwo at h
      split at h
      · cases h
      · rename_i c1 hp1
        split at h
        · cases h
        · rename_i c2 hp2
          split at h
          · injection h with h
            injection h with h1 h2
            subst h1 h2
            exact ⟨_, (twoLabelPass_ok hp1).append (twoLabelPass_ok hp2), ‹_›, rfl, fun _ => rfl⟩
          · cases h
    · rintro ⟨ls, hw, hz, hn, h2⟩
      obtain ⟨a, b, rfl⟩ := List.length_eq_two.1 (h2 ht)
      have hp1 : twoLabelPass s 12 = .ok (12 + 1 + a) := twoLabelPass_walked ⟨hw.1, hw.2.1, hw.2.2.1, rfl⟩
      have hp2 : twoLabelPass s (12 + 1 + a) = .ok e := twoLabelPass_walked hw.2.2.2
      unfold walkTwo
      simp only [Config.qOff, hp1, hp2, hz, hn]
      rfl
  · rw [if_neg ht]
    constructor
    · intro h
      obtain ⟨ls, h1, h2, h3⟩ := walkChain_ok _ _ _ _ _ h
      exact ⟨ls, h1, h2, by omega, fun h => absurd h ht⟩
    · rintro ⟨ls, hw, hz, hn, -⟩
      have hle := hw.le
      have hlt : ls.length < s.len := by
        rcases ls with _ | ⟨a, ls⟩
        · simp; omega
        · have := hw.lt_len (by simp)
          omega
      obtain ⟨f, hf⟩ : ∃ f, s.len = (f + 1) + ls.length := ⟨s.len - ls.length - 1, by omega⟩
      rw [Config.qOff, hf, walkChain_walked hw, walkChain, if_pos hz, hn]
      simp

/-- Where a walk that raises stopped. -/
theorem walk_error {s : State} {x : CmdError} (hlen : 13 ≤ s.len) (h0 : s.lengthAt 12 ≠ 0) (h : walk s = .error x) :
    ∃ ls d, Walked s 12 ls d ∧
      ((s.lengthAt d ≠ 0 ∧ checkLabel s.strict s.len d (s.lengthAt d) = some x) ∨
       (s.twoLabel = true ∧ x = .malformed d ∧ ls ≠ [])) := by
  unfold walk at h
  split at h
  · unfold walkTwo at h
    split at h
    · injection h with h
      subst h
      rcases twoLabelPass_error ‹_› with ⟨hz, -⟩ | hc
      · exact absurd hz h0
      · exact ⟨[], _, rfl, .inl hc⟩
    · rename_i c1 hp1
      have hw1 := twoLabelPass_ok hp1
      split at h
      · injection h with h
        subst h
        rcases twoLabelPass_error ‹_› with ⟨-, hx⟩ | hc
        · exact ⟨_, _, hw1, .inr ⟨‹_›, hx, by simp⟩⟩
        · exact ⟨_, _, hw1, .inl hc⟩
      · rename_i c2 hp2
        split at h
        · cases h
        · injection h with h
          exact ⟨_, _, hw1.append (twoLabelPass_ok hp2), .inr ⟨‹_›, h.symm, by simp⟩⟩
  · obtain ⟨ls, d, h1, h2, h3⟩ := walkChain_error _ _ _ _ (by simp; omega) (by omega) h
    exact ⟨ls, d, h1, .inl ⟨h2, h3⟩⟩

end Sys2Proof.Machine
end

