-- ==== Sys2Proof/Laws/Commands.lean ====
section
/-! SUPPORT. What each command's body can do, once: the scan of a question, the two decodes, the bytes of the encoders. -/

namespace Sys2Proof.Machine

theorem len_lt (s : State) : s.len < 1024 := s.inLen.isLt

theorem nameLen_lt (s : State) : s.nameLen < 512 := s.qName.nameLen.isLt

/-! ### The checks -/

theorem hdrCheck_none_iff (n : Nat) : hdrCheck n = none ↔ 12 ≤ n ∧ n ≤ 512 := by
  unfold hdrCheck
  simp only [Config.maxDgram, Config.hdrLen]
  split
  · simp only [reduceCtorEq, false_iff]; omega
  · split
    · simp only [reduceCtorEq, false_iff]; omega
    · simp only [true_iff]; omega

theorem hdrCheck_some {n : Nat} {e : CmdError} (h : hdrCheck n = some e) :
    (512 < n ∧ e = .oversize) ∨ (n < 12 ∧ e = .truncated .header n) := by
  unfold hdrCheck at h
  split at h
  · exact .inl ⟨‹_›, by simpa using h.symm⟩
  · split at h
    · exact .inr ⟨‹_›, by simpa using h.symm⟩
    · cases h

theorem qLenCheck_none_iff (n : Nat) : qLenCheck n = none ↔ 13 ≤ n ∧ n ≤ 512 := by
  unfold qLenCheck
  simp only [Config.maxDgram, Config.qMinLen]
  split
  · simp only [reduceCtorEq, false_iff]; omega
  · split
    · simp only [reduceCtorEq, false_iff]; omega
    · simp only [true_iff]; omega

theorem qLenCheck_some {n : Nat} {e : CmdError} (h : qLenCheck n = some e) :
    (512 < n ∧ e = .oversize) ∨ (n < 13 ∧ e = .truncated .question n) := by
  unfold qLenCheck at h
  split at h
  · exact .inl ⟨‹_›, by simpa using h.symm⟩
  · split at h
    · exact .inr ⟨‹_›, by simpa using h.symm⟩
    · cases h

/-! ### The scan of a question -/

/-- Past the length checks and the empty domain, the scan is the walk and the TYPE/CLASS bound. -/
theorem qScan_eq_walk {s : State} (h1 : 13 ≤ s.len) (h2 : s.len ≤ 512) (h0 : s.lengthAt 12 ≠ 0) :
    qScan s = match walk s with
      | .error e => .error e
      | .ok (c, k) => if c + 4 ≥ s.len then .error (.malformed s.len) else .ok (c, k) := by
  unfold qScan
  rw [(qLenCheck_none_iff _).2 ⟨h1, h2⟩]
  simp only
  rw [if_neg h0]
  all_goals cases walk s <;> rfl

/-- The first length byte of a question is not zero. -/
theorem Walked.first {s : State} {ls : List Nat} {c e : Nat} (h : Walked s c ls e) (hne : ls ≠ []) :
    s.lengthAt c ≠ 0 := by
  obtain ⟨l, ls, rfl⟩ := List.exists_cons_of_ne_nil hne
  have h1 := h.1
  have h2 := h.2.1
  omega

/-- The scan succeeds exactly on the grammar (30_encoding.md R97). -/
theorem qScan_ok_iff (s : State) (e k : Nat) :
    qScan s = .ok (e, k) ↔ ∃ ls, HasQuestion s ls e ∧ k = ls.length := by
  constructor
  · intro h
    unfold qScan at h
    split at h
    · cases h
    · obtain ⟨h1, h2⟩ := (qLenCheck_none_iff _).1 ‹_›
      split at h
      · cases h
      · rename_i h0
        split at h
        · cases h
        · rename_i c k' hw
          split at h
          · cases h
          · injection h with h
            injection h with ha hb
            subst ha hb
            obtain ⟨ls, hw, hz, hk, ht⟩ := (walk_ok_iff s h1 _ _).1 hw
            refine ⟨ls, ⟨h2, hw, ?_, hz, ht, by omega⟩, hk⟩
            rintro rfl
            simp only [Walked] at hw
            subst hw
            exact h0 hz
  · rintro ⟨ls, hq, rfl⟩
    have h0 := hq.labels.first hq.nonempty
    have hle := hq.labels.le
    have htc := hq.typeClass
    have h13 : 13 ≤ s.len := by omega
    rw [qScan_eq_walk h13 hq.notOversize h0,
      (walk_ok_iff s h13 e ls.length).2 ⟨ls, hq.labels, hq.terminator, rfl, hq.two⟩]
    simp only
    rw [if_neg (by omega)]

/-- Every way the scan can fail (60_exceptions.md R232). -/
theorem qScan_error {s : State} {x : CmdError} (h : qScan s = .error x) :
    (512 < s.len ∧ x = .oversize) ∨ (s.len < 13 ∧ x = .truncated .question s.len) ∨
    (13 ≤ s.len ∧ s.len ≤ 512 ∧ s.lengthAt 12 = 0 ∧ x = .emptyDomain) ∨
    (13 ≤ s.len ∧ s.len ≤ 512 ∧ ∃ d, 12 ≤ d ∧ d ≤ s.len ∧ x = .malformed d) := by
  unfold qScan at h
  split at h
  · injection h with h
    subst h
    rcases qLenCheck_some ‹_› with h | h
    · exact .inl h
    · exact .inr (.inl h)
  · obtain ⟨h1, h2⟩ := (qLenCheck_none_iff _).1 ‹_›
    split at h
    · injection h with h
      exact .inr (.inr (.inl ⟨h1, h2, ‹_›, h.symm⟩))
    · rename_i h0
      refine .inr (.inr (.inr ⟨h1, h2, ?_⟩))
      split at h
      · rename_i y hw
        injection h with h
        subst h
        obtain ⟨ls, d, hd, hx⟩ := walk_error h1 h0 hw
        have hle := hd.le
        have hlt : d < s.len := by
          rcases ls with _ | ⟨a, ls⟩
          · simp only [Walked] at hd; omega
          · exact hd.lt_len (by simp)
        rcases hx with ⟨-, hc⟩ | ⟨-, hx, -⟩
        · rcases checkLabel_some _ _ _ _ hc with hx | hx
          · exact ⟨d, by omega, by omega, hx⟩
          · exact ⟨s.len, by omega, le_refl _, hx⟩
        · exact ⟨d, by omega, by omega, hx⟩
      · split at h
        · injection h with h
          exact ⟨s.len, by omega, le_refl _, h.symm⟩
        · cases h

/-- The scan depends on IN_LEN, LBL_MODE, STRICT and the IBUF bytes below LEN only (41_question_codec.md
R150; 20_memory.md R78). -/
theorem walkChain_congr {s t : State} (hlen : t.inLen = s.inLen) (hst : t.ctrl = s.ctrl)
    (hb : ∀ i, i < s.len → t.buf .ibuf i = s.buf .ibuf i) :
    ∀ (f c k : Nat), c < s.len → walkChain t f c k = walkChain s f c k := by
  have hl : t.len = s.len := by simp [State.len, hlen]
  have hs : t.strict = s.strict := by simp [State.strict, hst]
  intro f
  induction f with
  | zero => intro c k _; simp [walkChain, hl]
  | succ f ih =>
    intro c k hc
    have hc' : t.lengthAt c = s.lengthAt c := by simp [State.lengthAt, hb c hc]
    rw [walkChain, walkChain, hc', hl, hs]
    split
    · rfl
    · split
      · rfl
      · have := (checkLabel_none_iff _ _ _).1 ‹_›
        exact ih _ _ this.1

theorem twoLabelPass_congr {s t : State} (hlen : t.inLen = s.inLen) (hst : t.ctrl = s.ctrl)
    (hb : ∀ i, i < s.len → t.buf .ibuf i = s.buf .ibuf i) (c : Nat) (hc : c < s.len) :
    twoLabelPass t c = twoLabelPass s c := by
  have hl : t.len = s.len := by simp [State.len, hlen]
  have hs : t.strict = s.strict := by simp [State.strict, hst]
  have hc' : t.lengthAt c = s.lengthAt c := by simp [State.lengthAt, hb c hc]
  rw [twoLabelPass, twoLabelPass, hc', hl, hs]

theorem qScan_congr {s t : State} (hlen : t.inLen = s.inLen) (hst : t.ctrl = s.ctrl)
    (hb : ∀ i, i < s.len → i < 512 → t.buf .ibuf i = s.buf .ibuf i) : qScan t = qScan s := by
  have hl : t.len = s.len := by simp [State.len, hlen]
  unfold qScan
  rw [hl]
  split
  · rfl
  · obtain ⟨h1, h2⟩ := (qLenCheck_none_iff _).1 ‹_›
    have hb' : ∀ i, i < s.len → t.buf .ibuf i = s.buf .ibuf i := fun i hi => hb i hi (by omega)
    have h12 : t.lengthAt 12 = s.lengthAt 12 := by simp [State.lengthAt, hb' 12 (by omega)]
    have hw : walk t = walk s := by
      unfold walk
      rw [show t.twoLabel = s.twoLabel by simp [State.twoLabel, hst]]
      split
      · unfold walkTwo
        rw [twoLabelPass_congr hlen hst hb' _ (by simp; omega)]
        split
        · rfl
        · rename_i c1 hp1
          have w1 := twoLabelPass_ok hp1
          rw [twoLabelPass_congr hlen hst hb' _ (w1.lt_len (by simp))]
          split
          · rfl
          · rename_i c2 hp2
            have w2 := twoLabelPass_ok hp2
            rw [State.lengthAt, hb' _ (w2.lt_len (by simp))]
            rfl
      · rw [hl]
        exact walkChain_congr hlen hst hb' _ _ _ (by simp; omega)
    rw [Config.qOff, h12, hw]

/-! ### Dropping the response changes no input -/

@[simp] theorem len_dropResponse (s : State) : s.dropResponse.len = s.len := rfl
@[simp] theorem scopeZero_dropResponse (s : State) : s.dropResponse.scopeZero = s.scopeZero := rfl
@[simp] theorem twoLabel_dropResponse (s : State) : s.dropResponse.twoLabel = s.twoLabel := rfl
@[simp] theorem strict_dropResponse (s : State) : s.dropResponse.strict = s.strict := rfl
@[simp] theorem nameLen_dropResponse (s : State) : s.dropResponse.nameLen = s.nameLen := rfl
@[simp] theorem buf_dropResponse (s : State) (b : Buf) (i : Nat) : s.dropResponse.buf b i = s.buf b i := rfl
@[simp] theorem bytes_dropResponse (s : State) (b : Buf) (i n : Nat) :
    s.dropResponse.bytes b i n = s.bytes b i n := rfl
@[simp] theorem lengthAt_dropResponse (s : State) (c : Nat) : s.dropResponse.lengthAt c = s.lengthAt c := rfl
@[simp] theorem qScan_dropResponse (s : State) : qScan s.dropResponse = qScan s :=
  qScan_congr rfl rfl fun _ _ _ => rfl
@[simp] theorem headerBytes_dropResponse (s : State) : headerBytes s.dropResponse = headerBytes s := rfl
@[simp] theorem questionBytes_dropResponse (s : State) : questionBytes s.dropResponse = questionBytes s := rfl

/-- A walk depends on IN_LEN, STRICT and the length bytes it reads. -/
theorem Walked.congr {s t : State} (hlen : t.inLen = s.inLen) (hst : t.ctrl = s.ctrl) :
    ∀ {ls : List Nat} {c e : Nat}, (∀ x, x ∈ cursors c ls → t.lengthAt x = s.lengthAt x) →
      Walked s c ls e → Walked t c ls e
  | [], _, _, _, h => h
  | l :: ls, c, e, hb, h => by
    obtain ⟨h1, h2, h3, h4⟩ := h
    refine ⟨(hb c (by simp [cursors])).trans h1, h2, ?_,
      Walked.congr hlen hst (fun x hx => hb x (by simp [cursors, hx])) h4⟩
    simpa [LabelFits, State.len, State.strict, hlen, hst] using h3

/-- The walk's end is its last cursor. -/
theorem Walked.end_mem_cursors {s : State} : ∀ {ls : List Nat} {c e : Nat}, Walked s c ls e → e ∈ cursors c ls
  | [], c, e, h => by simp only [Walked] at h; simp [cursors, h]
  | l :: ls, c, e, h => by simp [cursors, Walked.end_mem_cursors h.2.2.2]

/-- A question depends on IN_LEN, CTRL and the bytes at the cursors (41_question_codec.md R168). -/
theorem HasQuestion.congr {s t : State} (hlen : t.inLen = s.inLen) (hst : t.ctrl = s.ctrl) {ls : List Nat} {e : Nat}
    (hb : ∀ x, x ∈ cursors 12 ls → t.lengthAt x = s.lengthAt x) (h : HasQuestion s ls e) : HasQuestion t ls e := by
  have hl : t.len = s.len := by simp [State.len, hlen]
  exact ⟨by rw [hl]; exact h.notOversize, h.labels.congr hlen hst hb, h.nonempty,
    (hb e h.labels.end_mem_cursors).trans h.terminator,
    fun ht => h.two (by simpa [State.twoLabel, hst] using ht), by rw [hl]; exact h.typeClass⟩

theorem HasQuestion.dropResponse {s : State} {ls : List Nat} {e : Nat} (h : HasQuestion s ls e) :
    HasQuestion s.dropResponse ls e :=
  HasQuestion.congr (s := s) (t := State.dropResponse s) rfl rfl (fun _ _ => rfl) h

/-! ### The bytes of the encoders -/

@[simp] theorem headerBytes_length (s : State) : (headerBytes s).length = 12 := rfl

@[simp] theorem questionBytes_length (s : State) : (questionBytes s).length = s.nameLen + 4 := by
  simp [questionBytes]

theorem byteAt_hdrEncodeBody (s : State) (a : Nat) :
    (hdrEncodeBody s).byteAt a =
      if 0x800 ≤ a then ((headerBytes s)[a - 0x800]?).getD (s.byteAt a) else s.byteAt a :=
  byteAt_putBytes s .obuf 0 (headerBytes s) a

theorem byteAt_qEncodeBody (s : State) (a : Nat) :
    (qEncodeBody s).byteAt a =
      if 0x80C ≤ a then ((questionBytes s)[a - 0x80C]?).getD (s.byteAt a) else s.byteAt a :=
  byteAt_putBytes s .obuf 12 (questionBytes s) a

theorem byteAt_qCommit (s : State) (c k a : Nat) :
    (qCommit s c k).byteAt a =
      if 0x600 ≤ a then ((s.bytes .ibuf 12 (c + 1 - 12))[a - 0x600]?).getD (s.byteAt a) else s.byteAt a :=
  byteAt_putBytes s .nbuf 0 (s.bytes .ibuf 12 (c + 1 - 12)) a

/-- The bytes just written read back as the list. -/
theorem bytes_putBytes (s : State) (b : Buf) (i : Nat) (bs : List Byte) :
    (s.putBytes b i bs).bytes b i bs.length = bs := by
  apply List.ext_getElem
  · simp
  · intro k h1 h2
    rw [bytes_getElem, State.buf, ← Nat.add_assoc]
    exact byteAt_putBytes_inside s b i k bs h2

/-- A run of bytes is two shorter runs. -/
theorem bytes_add (s : State) (b : Buf) (i m n : Nat) :
    s.bytes b i (m + n) = s.bytes b i m ++ s.bytes b (i + m) n := by
  simp only [State.bytes, List.range_add, List.map_append, List.map_map]
  congr 1
  apply List.map_congr_left
  intro k _
  simp [Nat.add_assoc]

theorem bytes_congr {s t : State} {b b' : Buf} {i j n : Nat}
    (h : ∀ k, k < n → t.buf b (i + k) = s.buf b' (j + k)) : t.bytes b i n = s.bytes b' j n := by
  apply List.map_congr_left
  intro k hk
  exact h k (List.mem_range.1 hk)

/-! ### exec, arm by arm -/

@[simp] theorem exec_nop (s : State) : exec .nop s = .next s.complete := rfl
@[simp] theorem exec_hdrDecode (s : State) :
    exec .hdrDecode s = .next (s.dropResponse.finish (hdrDecodeBody s.dropResponse)) := rfl
@[simp] theorem exec_hdrEncode (s : State) : exec .hdrEncode s = .next (hdrEncodeBody s.dropResponse).complete := rfl
@[simp] theorem exec_qDecode (s : State) :
    exec .qDecode s = .next (s.dropResponse.finish (qDecodeBody s.dropResponse)) := rfl
@[simp] theorem exec_qEncode (s : State) : exec .qEncode s = .next (qEncodeBody s.dropResponse).complete := rfl
@[simp] theorem exec_compose (s : State) : exec .compose s = .next (composeBody s).complete := rfl
@[simp] theorem exec_process (s : State) : exec .process s = .next (processStages s.dropResponse) := rfl
@[simp] theorem exec_clear (s : State) : exec .clear s = .next (clearBody s.dropResponse).complete := rfl

/-! ### The decode bodies -/

/-- HDR_DECODE's body: an error and its cause, or one of the two extractions. -/
theorem hdrDecodeBody_cases (s : State) :
    (∃ e, hdrDecodeBody s = .error e ∧ ((512 < s.len ∧ e = .oversize) ∨ (s.len < 12 ∧ e = .truncated .header s.len))) ∨
    (12 ≤ s.len ∧ s.len ≤ 512 ∧
      hdrDecodeBody s = .ok (if s.scopeZero then hdrScopeZero s else hdrFullExtract s)) := by
  unfold hdrDecodeBody
  split
  · exact .inl ⟨_, rfl, hdrCheck_some ‹_›⟩
  · obtain ⟨h1, h2⟩ := (hdrCheck_none_iff _).1 ‹_›
    exact .inr ⟨h1, h2, rfl⟩

theorem hdrDecodeBody_oversize {s : State} (h : 512 < s.len) : hdrDecodeBody s = .error .oversize := by
  rcases hdrDecodeBody_cases s with ⟨e, he, (⟨-, rfl⟩ | ⟨h', -⟩)⟩ | ⟨h1, h2, -⟩
  · exact he
  · omega
  · omega

theorem hdrDecodeBody_truncated {s : State} (h : s.len < 12) :
    hdrDecodeBody s = .error (.truncated .header s.len) := by
  rcases hdrDecodeBody_cases s with ⟨e, he, (⟨h', -⟩ | ⟨-, rfl⟩)⟩ | ⟨h1, h2, -⟩
  · omega
  · exact he
  · omega

theorem hdrDecodeBody_succeeds {s : State} (h1 : 12 ≤ s.len) (h2 : s.len ≤ 512) :
    hdrDecodeBody s = .ok (if s.scopeZero then hdrScopeZero s else hdrFullExtract s) := by
  rcases hdrDecodeBody_cases s with ⟨e, he, (⟨h', -⟩ | ⟨h', -⟩)⟩ | ⟨-, -, h⟩
  · omega
  · omega
  · exact h

/-- Either extraction is one write of the four header registers. -/
theorem hdrDecodeBody_ok {s t : State} (h : hdrDecodeBody s = .ok t) :
    12 ≤ s.len ∧ s.len ≤ 512 ∧ ∃ i f q a n r, t = s.setHeader i f q a n r := by
  rcases hdrDecodeBody_cases s with ⟨e, he, -⟩ | ⟨h1, h2, ho⟩
  · rw [he] at h; cases h
  · rw [ho] at h
    injection h with h
    refine ⟨h1, h2, ?_⟩
    split at h
    · exact ⟨_, _, _, _, _, _, h.symm⟩
    · exact ⟨_, _, _, _, _, _, h.symm⟩

/-- Q_DECODE's body: an error of the scan, or the commit of a question. -/
theorem qDecodeBody_cases (s : State) :
    (∃ e, qDecodeBody s = .error e ∧ qScan s = .error e) ∨
    (∃ ls e, HasQuestion s ls e ∧ qDecodeBody s = .ok (qCommit s e ls.length)) := by
  unfold qDecodeBody
  split
  · exact .inl ⟨_, rfl, ‹_›⟩
  · rename_i c k hs
    obtain ⟨ls, hq, rfl⟩ := (qScan_ok_iff s c k).1 hs
    exact .inr ⟨ls, c, hq, rfl⟩

theorem qDecodeBody_question {s : State} {ls : List Nat} {e : Nat} (h : HasQuestion s ls e) :
    qDecodeBody s = .ok (qCommit s e ls.length) := by
  unfold qDecodeBody
  rw [(qScan_ok_iff s e ls.length).2 ⟨ls, h, rfl⟩]

theorem qDecodeBody_error {s : State} {x : CmdError} (h : qScan s = .error x) : qDecodeBody s = .error x := by
  unfold qDecodeBody
  rw [h]

/-- The ranges of a question's terminator and label count (10_state.md R35, R37; 41_question_codec.md R161). -/
theorem HasQuestion.bounds {s : State} {ls : List Nat} {e : Nat} (h : HasQuestion s ls e) :
    14 ≤ e ∧ e ≤ 507 ∧ 1 ≤ ls.length ∧ ls.length ≤ 247 ∧ 13 ≤ s.len := by
  have h1 := h.labels.le
  have h2 := h.typeClass
  have h3 := h.notOversize
  have h4 : 1 ≤ ls.length := List.length_pos_iff.2 h.nonempty
  omega

/-! ### What the two decode commands answer -/

/-- No error has code 0 (60_exceptions.md R231). -/
theorem code_ne_zero (k : ErrKind) : k.code ≠ 0 := by cases k <;> decide

/-- Q_DECODE on a scan that fails records the error and nothing else (60_exceptions.md R236). -/
theorem exec_qDecode_error {s : State} {x : CmdError} (hx : qScan s = .error x) :
    exec .qDecode s = .next (FailedWith s x.kind.code x.stage.code x.offset) := by
  rw [exec_qDecode, qDecodeBody_error (s := s.dropResponse) (by rw [qScan_dropResponse, hx])]; rfl

/-- Q_DECODE on a question commits it (41_question_codec.md R161). -/
theorem exec_qDecode_question {s : State} {ls : List Nat} {e : Nat} (h : HasQuestion s ls e) :
    exec .qDecode s = .next (qCommit s.dropResponse e ls.length).complete := by
  rw [exec_qDecode, qDecodeBody_question h.dropResponse]; rfl

/-- The kept flags of a SCOPE_ZERO decode, as two wire bytes. -/
theorem scopeZeroFlags_eq (b : Byte) : scopeZeroFlags b = be16 (b &&& 0x80) 0 := by
  revert b; decide +kernel

/-- A walk that reaches a label that fails its checks ends the scan with that failure. -/
theorem qScan_stuck {s : State} {ls : List Nat} {c : Nat} {x : CmdError} (h1 : 13 ≤ s.len) (h2 : s.len ≤ 512)
    (hw : Walked s 12 ls c) (ht : s.twoLabel = true → ls.length < 2) (hl : s.lengthAt c ≠ 0)
    (hc : checkLabel s.strict s.len c (s.lengthAt c) = some x) : qScan s = .error x := by
  have h0 : s.lengthAt 12 ≠ 0 := by
    rcases ls with _ | ⟨a, ls⟩
    · simp only [Walked] at hw; subst hw; exact hl
    · exact hw.first (by simp)
  have hp : ∀ c, s.lengthAt c ≠ 0 → checkLabel s.strict s.len c (s.lengthAt c) = some x →
      twoLabelPass s c = .error x := by
    intro c a b; unfold twoLabelPass; rw [if_neg a, b]
  have : walk s = .error x := by
    unfold walk
    split
    · rename_i htw
      have := ht htw
      unfold walkTwo
      rcases ls with _ | ⟨a, _ | ⟨b, ls⟩⟩
      · simp only [Walked] at hw; subst hw
        rw [Config.qOff, hp _ hl hc]
      · rw [Config.qOff, twoLabelPass_walked hw]
        simp only
        rw [hp _ hl hc]
      · simp at this
    · have hlt : ls.length < s.len := by
        have hle := hw.le
        rcases ls with _ | ⟨a, ls⟩
        · simp; omega
        · have := hw.lt_len (by simp)
          omega
      obtain ⟨f, hf⟩ : ∃ f, s.len = (f + 1) + ls.length := ⟨s.len - ls.length - 1, by omega⟩
      rw [Config.qOff]
      conv => lhs; rw [hf]
      rw [walkChain_walked hw, walkChain, if_neg hl, hc]
  rw [qScan_eq_walk h1 h2 h0, this]

/-! ### Frames -/

/-- A state whose bytes are those of a run of writes differs only in the run. -/
theorem sameBytesOutside_putBytes {s t : State} {b : Buf} {i a n : Nat} {bs : List Byte}
    (h : ∀ x, t.byteAt x = (s.putBytes b i bs).byteAt x) (ha : b.base + i = a) (hn : bs.length = n) :
    SameBytesOutside s t a n := by
  intro x hx
  rw [h, byteAt_putBytes_outside]
  omega

end Sys2Proof.Machine
end

