-- ==== Sys2Proof/Laws/Step.lean ====
section
/-! SUPPORT. What a step can do: the outcomes of a turn, the label search, runs of the machine, and what no command touches. -/

namespace Sys2Proof.Machine

/-! ### Runs -/

@[simp] theorem core_run_zero (s : State) : core.run 0 s = .next s := rfl

theorem run_next (M : Host.Core) {s t : M.State} (k : Nat) (h : M.step s = .next t) : M.run (k + 1) s = M.run k t := by
  rw [Host.Core.run, h]

theorem run_one (M : Host.Core) (s : M.State) : M.run 1 s = M.step s := by
  rw [Host.Core.run]
  cases M.step s <;> rfl

theorem core_run_next {s t : State} (k : Nat) (h : step s = .next t) : core.run (k + 1) s = core.run k t :=
  run_next core k h

theorem core_run_one (s : State) : core.run 1 s = step s := run_one core s

/-- With BUSY = 1 and no schedule left, the step is the engine's. -/
theorem step_busy {s : State} (hs : s.env.sched = []) (hb : s.status.busy = true) : step s = engineTurn s := by
  simp [step, takeTurn, hs, hb, turnStep]

/-- A step over a schedule takes its first turn. -/
theorem step_sched {s : State} {t : Turn} {l : List Turn} (hs : s.env.sched = t :: l) :
    step s = turnStep t { s with env := { s.env with sched := l } } := by
  simp [step, takeTurn, hs]

/-! ### The host's turn -/

/-- A declared label is found. -/
theorem findLabel_isSome {p : List Line} {l : Label} (h : l ∈ declaredLabels p) (n : Nat) :
    ∃ k, findLabel p l n = some k := by
  induction p generalizing n with
  | nil => simp [declaredLabels] at h
  | cons ln p ih =>
    rw [findLabel]
    split
    · exact ⟨_, rfl⟩
    · rename_i hn
      apply ih
      simp only [declaredLabels, List.flatMap_cons, List.mem_append] at h
      rcases h with h | h
      · exact absurd (by simpa using h) hn
      · exact h

/-- The line a label search finds carries the label. -/
theorem findLabel_some {p : List Line} {l : Label} : ∀ {n k : Nat}, findLabel p l n = some k →
    n ≤ k ∧ ∃ ln, p[k - n]? = some ln ∧ l ∈ ln.labels := by
  induction p with
  | nil => intro n k h; cases h
  | cons ln p ih =>
    intro n k h
    rw [findLabel] at h
    split at h
    · rename_i hl
      injection h with h
      subst h
      exact ⟨le_refl _, ln, by simp, by simpa using hl⟩
    · obtain ⟨h1, m, h2, h3⟩ := ih h
      refine ⟨by omega, m, ?_, h3⟩
      rw [show k - n = (k - (n + 1)) + 1 by omega, List.getElem?_cons_succ]
      exact h2

/-- An operation of the program goes on, but for a branch to a label that is not declared. -/
theorem hostLine_cases (s : State) (n : Nat) (op : HostOp) :
    (∃ t, hostLine s n op = .next t ∧ t.env.program = s.env.program) ∨
    (hostLine s n op = .fault .undefinedLabel ∧ ∃ f l, op = .bnz f l ∧ findLabel s.env.program l 0 = none) := by
  cases op with
  | bnz f l =>
    rw [hostLine]
    split
    · exact .inl ⟨_, rfl, rfl⟩
    · split
      · exact .inl ⟨_, rfl, rfl⟩
      · exact .inr ⟨rfl, f, l, rfl, ‹_›⟩
  | _ => refine .inl ⟨_, rfl, ?_⟩; simp [perform_env, Env.saw]

/-- The same of the host's turn. -/
theorem hostTurn_cases (s : State) :
    (∃ t, hostTurn s = .next t ∧ t.env.program = s.env.program) ∨
    (hostTurn s = .fault .undefinedLabel ∧
      ∃ ln f l, ln ∈ s.env.program ∧ ln.op = .bnz f l ∧ findLabel s.env.program l 0 = none) := by
  rw [hostTurn]
  split
  · refine .inl ⟨_, rfl, ?_⟩; simp [perform_env, Env.saw]
  · split
    · rename_i ln hln
      rcases hostLine_cases s s.env.pc ln.op with h | ⟨h, f, l, h1, h2⟩
      · exact .inl h
      · exact .inr ⟨h, ln, f, l, List.mem_of_getElem? hln, h1, h2⟩
    · exact .inl ⟨_, rfl, rfl⟩

/-! ### Every command answers a next state, and what none touches -/

/-- The fields no command writes (20_memory.md R67). -/
structure KeepsInputs (s t : State) : Prop where
  ctrl : t.ctrl = s.ctrl
  lastCmd : t.lastCmd = s.lastCmd
  inLen : t.inLen = s.inLen
  polQdAn : t.polQdAn = s.polQdAn
  polNsAr : t.polNsAr = s.polNsAr
  epoch : t.epoch = s.epoch
  env : t.env = s.env
  werr : t.status.werr = s.status.werr
  berr : t.status.berr = s.status.berr

theorem hdrDecodeBody_keeps {s t : State} (h : hdrDecodeBody s = .ok t) : KeepsInputs s t := by
  obtain ⟨-, -, i, f, q, a, n, r, rfl⟩ := hdrDecodeBody_ok h
  constructor <;> rfl

theorem qDecodeBody_keeps {s t : State} (h : qDecodeBody s = .ok t) : KeepsInputs s t := by
  rcases qDecodeBody_cases s with ⟨e, he, -⟩ | ⟨ls, e, hq, ho⟩
  · rw [he] at h; cases h
  · rw [ho] at h
    injection h with h
    subst h
    constructor <;> simp

theorem KeepsInputs.trans {s t u : State} (h : KeepsInputs s t) (k : KeepsInputs t u) : KeepsInputs s u :=
  ⟨k.ctrl.trans h.ctrl, k.lastCmd.trans h.lastCmd, k.inLen.trans h.inLen, k.polQdAn.trans h.polQdAn,
    k.polNsAr.trans h.polNsAr, k.epoch.trans h.epoch, k.env.trans h.env, k.werr.trans h.werr, k.berr.trans h.berr⟩

theorem keeps_fail (s : State) (e : CmdError) : KeepsInputs s (s.fail e) := by constructor <;> rfl
theorem keeps_complete (s : State) : KeepsInputs s s.complete := by constructor <;> rfl
theorem keeps_dropResponse (s : State) : KeepsInputs s s.dropResponse := by constructor <;> rfl
theorem keeps_hdrEncodeBody (s : State) : KeepsInputs s (hdrEncodeBody s) := by constructor <;> rfl
theorem keeps_qEncodeBody (s : State) : KeepsInputs s (qEncodeBody s) := by constructor <;> simp
theorem keeps_composeBody (s : State) : KeepsInputs s (composeBody s) := by constructor <;> rfl
theorem keeps_clearBody (s : State) : KeepsInputs s (clearBody s) := by constructor <;> rfl

/-- Every way PROCESS can end: at the header stage, at the question stage, or with a response
(42_control.md R194). -/
theorem processStages_cases (s : State) :
    (∃ e, hdrDecodeBody s = .error e ∧ processStages s = s.fail e) ∨
    (∃ t e, hdrDecodeBody s = .ok t ∧ qDecodeBody (hdrEncodeBody t) = .error e ∧
      processStages s = (hdrEncodeBody t).fail e) ∨
    (∃ t u, hdrDecodeBody s = .ok t ∧ qDecodeBody (hdrEncodeBody t) = .ok u ∧
      processStages s = (composeBody (qEncodeBody u)).complete) := by
  unfold processStages
  split
  · exact .inl ⟨_, ‹_›, rfl⟩
  · rename_i t ht
    right
    simp only
    split
    · exact .inl ⟨t, _, ht, ‹_›, rfl⟩
    · exact .inr ⟨t, _, ht, ‹_›, rfl⟩

/-- Every command answers a next state with DONE = 1 and BUSY = 0, its inputs untouched
(42_control.md R191; 20_memory.md R67). -/
theorem exec_completes (i : Instr) (s : State) :
    ∃ t, exec i s = .next t ∧ t.status.busy = false ∧ t.status.done = true ∧ KeepsInputs s t := by
  cases i
  case hdrDecode =>
    refine ⟨_, rfl, ?_⟩
    cases h : hdrDecodeBody s.dropResponse with
    | error e => exact ⟨rfl, rfl, (keeps_dropResponse s).trans (keeps_fail _ e)⟩
    | ok t => exact ⟨rfl, rfl, ((keeps_dropResponse s).trans (hdrDecodeBody_keeps h)).trans (keeps_complete t)⟩
  case qDecode =>
    refine ⟨_, rfl, ?_⟩
    cases h : qDecodeBody s.dropResponse with
    | error e => exact ⟨rfl, rfl, (keeps_dropResponse s).trans (keeps_fail _ e)⟩
    | ok t => exact ⟨rfl, rfl, ((keeps_dropResponse s).trans (qDecodeBody_keeps h)).trans (keeps_complete t)⟩
  case process =>
    refine ⟨_, rfl, ?_⟩
    have hd := keeps_dropResponse s
    rcases processStages_cases s.dropResponse with ⟨e, -, hp⟩ | ⟨t, e, h1, -, hp⟩ | ⟨t, u, h1, h2, hp⟩
    · rw [hp]; exact ⟨rfl, rfl, hd.trans (keeps_fail _ e)⟩
    · rw [hp]
      exact ⟨rfl, rfl, ((hd.trans (hdrDecodeBody_keeps h1)).trans (keeps_hdrEncodeBody t)).trans (keeps_fail _ e)⟩
    · rw [hp]
      exact ⟨rfl, rfl, (((((hd.trans (hdrDecodeBody_keeps h1)).trans (keeps_hdrEncodeBody t)).trans
        (qDecodeBody_keeps h2)).trans (keeps_qEncodeBody u)).trans (keeps_composeBody _)).trans (keeps_complete _)⟩
  case nop => exact ⟨_, rfl, rfl, rfl, keeps_complete s⟩
  case hdrEncode =>
    exact ⟨_, rfl, rfl, rfl, ((keeps_dropResponse s).trans (keeps_hdrEncodeBody _)).trans (keeps_complete _)⟩
  case qEncode =>
    exact ⟨_, rfl, rfl, rfl, ((keeps_dropResponse s).trans (keeps_qEncodeBody _)).trans (keeps_complete _)⟩
  case compose => exact ⟨_, rfl, rfl, rfl, (keeps_composeBody s).trans (keeps_complete _)⟩
  case clear =>
    exact ⟨_, rfl, rfl, rfl, ((keeps_dropResponse s).trans (keeps_clearBody _)).trans (keeps_complete _)⟩

/-- The engine's turn always goes on, and leaves the host alone. -/
theorem engineTurn_next (s : State) : ∃ t, engineTurn s = .next t ∧ t.env = s.env := by
  rw [engineTurn]
  split
  · split
    · obtain ⟨t, h, -, -, k⟩ := exec_completes _ s
      exact ⟨t, h, k.env⟩
    · exact ⟨_, rfl, rfl⟩
  · exact ⟨_, rfl, rfl⟩

/-- Every way a turn can end. -/
theorem turnStep_cases (t : Turn) (s : State) :
    (∃ u, turnStep t s = .next u ∧ u.env.program = s.env.program) ∨
    (turnStep t s = .fault .undefinedLabel ∧
      ∃ ln f l, ln ∈ s.env.program ∧ ln.op = .bnz f l ∧ findLabel s.env.program l 0 = none) := by
  cases t with
  | engine =>
    obtain ⟨u, h1, h2⟩ := engineTurn_next s
    exact .inl ⟨u, h1, by rw [h2]⟩
  | access a => exact .inl ⟨_, rfl, by simp [perform_env, Env.saw]⟩
  | hostOp => exact hostTurn_cases s
  | rst => exact .inl ⟨_, rfl, rfl⟩

/-- Taking a turn changes the schedule only. -/
theorem takeTurn_state (s : State) :
    (takeTurn s).2 = { s with env := { s.env with sched := (takeTurn s).2.env.sched } } := by
  unfold takeTurn
  split
  · rfl
  · split <;> [rfl; split <;> rfl]

end Sys2Proof.Machine
end

