-- ==== Sys2Proof/Laws/Invariant.lean ====
section
/-! SUPPORT. The invariant of 10_state.md R44 under each operation a turn is made of. -/

namespace Sys2Proof.Machine

/-- The addresses of the three buffers (20_memory.md R61). -/
theorem isBufAddr_of {a : Nat} (h : (0x400 ≤ a ∧ a < 0x600) ∨ (0x600 ≤ a ∧ a < 0x7F0) ∨ (0x800 ≤ a ∧ a < 0xA00)) :
    isBufAddr a = true := decide_eq_true h

/-- The invariant speaks of the block's registers and its listed bytes only. -/
theorem Inv.env {s : State} (h : Inv s) (e : Env) : Inv { s with env := e } :=
  ⟨h.noResponse, h.response, h.qOutLen, h.nameLen, h.busyDone, h.errStage, h.errCode, h.stage, h.offset,
    h.nLabels, h.qEnd, h.memWf⟩

theorem Inv.mem {s : State} (h : Inv s) (m : Memory) (hm : m.wf = true) : Inv { s with mem := m } :=
  ⟨h.noResponse, h.response, h.qOutLen, h.nameLen, h.busyDone, h.errStage, h.errCode, h.stage, h.offset,
    h.nLabels, h.qEnd, hm⟩

theorem Inv.header {s : State} (h : Inv s) (i f q a n r : Half) : Inv (s.setHeader i f q a n r) :=
  ⟨h.noResponse, h.response, h.qOutLen, h.nameLen, h.busyDone, h.errStage, h.errCode, h.stage, h.offset,
    h.nLabels, h.qEnd, h.memWf⟩

/-- The invariant of the command record alone. -/
theorem Inv.record {s : State} (h : Inv s) (o : BitVec 10) (e : ErrInfo) (st : Status)
    (h1 : st.respValid = false → o = 0) (h2 : st.respValid = true → o.toNat = 12 + s.qOutLen.toNat)
    (h3 : st.busy = true → st.done = false) (h4 : st.err = 0 ↔ e.stage = 0) (h5 : st.err.toNat ≤ 5)
    (h6 : e.stage.toNat ≤ 3) (h7 : e.offset.toNat ≤ 512) :
    Inv { s with outLen := o, errInfo := e, status := st } :=
  ⟨h1, h2, h.qOutLen, h.nameLen, h3, h4, h5, h6, h7, h.nLabels, h.qEnd, h.memWf⟩

theorem Inv.accept {s : State} (h : Inv s) (w : Word) : Inv (s.accept w) :=
  ⟨h.noResponse, h.response, h.qOutLen, h.nameLen, fun _ => rfl, h.errStage, h.errCode, h.stage, h.offset,
    h.nLabels, h.qEnd, h.memWf⟩

theorem Inv.dropResponse {s : State} (h : Inv s) : Inv s.dropResponse :=
  h.record _ _ _ (fun _ => rfl) (fun x => by simp at x) h.busyDone h.errStage h.errCode h.stage h.offset

theorem Inv.complete {s : State} (h : Inv s) : Inv s.complete :=
  h.record _ _ _ h.noResponse h.response (fun x => by simp at x) (by simp) (by simp) (by simp) (by simp)

/-- Every code and stage of an error is in range (60_exceptions.md R231, R233). -/
theorem code_le (k : ErrKind) : k.code.toNat ≤ 5 := by cases k <;> decide
theorem stage_le (g : Stage) : g.code.toNat ≤ 3 := by cases g <;> decide
theorem stage_ne_zero (g : Stage) : g.code ≠ 0 := by cases g <;> decide

theorem Inv.fail {s : State} (h : Inv s) (e : CmdError) (he : e.offset ≤ 512) : Inv (s.fail e) :=
  h.record _ _ _ (fun _ => rfl) (fun x => by simp at x) (fun x => by simp at x)
    ⟨fun x => absurd x (code_ne_zero _), fun x => absurd x (stage_ne_zero _)⟩ (code_le _) (stage_le _)
    (by simp only [BitVec.toNat_ofNat]; omega)

theorem qOutLen_le {s : State} (h : Inv s) : s.qOutLen.toNat ≤ 500 := by
  rcases h.qOutLen with h | h
  · rw [h]; simp
  · exact h.2

theorem Inv.compose {s : State} (h : Inv s) : Inv (composeBody s) := by
  have := qOutLen_le h
  refine h.record _ _ _ (fun x => by simp at x) (fun _ => ?_) h.busyDone h.errStage h.errCode h.stage h.offset
  rw [BitVec.toNat_ofNat, Nat.mod_eq_of_lt (by omega)]

theorem Inv.putBytes {s : State} (h : Inv s) (b : Buf) (i : Nat) (bs : List Byte)
    (hb : ∀ k, k < bs.length → isBufAddr (b.base + i + k) = true) : Inv (s.putBytes b i bs) :=
  h.mem _ (wf_putAll bs s.mem (b.base + i) hb h.memWf)

theorem Inv.hdrEncode {s : State} (h : Inv s) : Inv (hdrEncodeBody s) := by
  refine h.putBytes _ _ _ fun k hk => ?_
  rw [headerBytes_length] at hk
  exact isBufAddr_of (by simp only [Buf.base]; omega)

/-- Q_ENCODE keeps the invariant where no response stands, as `dropResponse` leaves it. -/
theorem Inv.qEncode {s : State} (h : Inv s) (hr : s.status.respValid = false) : Inv (qEncodeBody s) := by
  have hn : s.nameLen ≤ 496 := h.nameLen
  have hp := h.putBytes .obuf 12 (questionBytes s) (fun k hk => by
    rw [questionBytes_length] at hk
    exact isBufAddr_of (by simp only [Buf.base]; omega))
  refine ⟨h.noResponse, fun x => ?_, .inr ?_, h.nameLen, h.busyDone, h.errStage, h.errCode, h.stage, h.offset,
    h.nLabels, h.qEnd, hp.memWf⟩
  · rw [show (qEncodeBody s).status.respValid = false from hr] at x; cases x
  · simp only [qEncodeBody, BitVec.toNat_ofNat]; omega

/-- The commit of a question keeps the invariant. -/
theorem Inv.qCommit {s : State} (h : Inv s) {ls : List Nat} {e : Nat} (hq : HasQuestion s ls e) :
    Inv (qCommit s e ls.length) := by
  obtain ⟨b1, b2, b3, b4, b5⟩ := hq.bounds
  have hp := h.putBytes .nbuf 0 (s.bytes .ibuf 12 (e + 1 - 12)) (fun k hk => by
    rw [bytes_length] at hk
    exact isBufAddr_of (by simp only [Buf.base]; omega))
  refine ⟨h.noResponse, h.response, h.qOutLen, ?_, h.busyDone, h.errStage, h.errCode, h.stage, h.offset, ?_, .inr ?_, hp.memWf⟩
  · simp only [Sys2Proof.Machine.qCommit, Config.qOff, BitVec.toNat_ofNat]; omega
  · simp only [Sys2Proof.Machine.qCommit, BitVec.toNat_ofNat]; omega
  · simp only [Sys2Proof.Machine.qCommit, BitVec.toNat_ofNat]; omega

theorem Inv.clear {s : State} (h : Inv s) (hr : s.status.respValid = false) : Inv (clearBody s) := by
  refine ⟨h.noResponse, fun x => ?_, .inl rfl, by simp [clearBody], h.busyDone, h.errStage, h.errCode, h.stage,
    h.offset, by simp [clearBody], .inl rfl, h.memWf⟩
  rw [show (clearBody s).status.respValid = false from hr] at x; cases x

/-- A decode's error has an offset in range (60_exceptions.md R234). -/
theorem hdrDecodeBody_offset {s : State} {x : CmdError} (h : hdrDecodeBody s = .error x) : x.offset ≤ 512 := by
  rcases hdrDecodeBody_cases s with ⟨e, he, hc⟩ | ⟨_, _, h'⟩
  · rw [he] at h
    injection h with h
    subst h
    rcases hc with ⟨_, rfl⟩ | ⟨hl, rfl⟩
    · exact Nat.zero_le _
    · simp only [CmdError.truncated]; omega
  · rw [h'] at h; cases h

theorem qScan_offset {s : State} {x : CmdError} (h : qScan s = .error x) : x.offset ≤ 512 := by
  rcases qScan_error h with ⟨_, rfl⟩ | ⟨hl, rfl⟩ | ⟨_, _, _, rfl⟩ | ⟨_, h2, d, _, h4, rfl⟩
  · exact Nat.zero_le _
  · simp only [CmdError.truncated]; omega
  · simp [CmdError.emptyDomain]
  · simp only [CmdError.malformed]; omega

/-- A write of the bus keeps the invariant (42_control.md R197, R200; 10_state.md R44). -/
theorem Inv.writeReg {s : State} (h : Inv s) (hb : s.status.busy = false) (v : Word) (r : Reg) : Inv (s.writeReg v r) := by
  cases r
  case cmd => exact h.accept v
  case status =>
    refine ⟨h.noResponse, h.response, h.qOutLen, h.nameLen, fun x => ?_, h.errStage, h.errCode, h.stage, h.offset,
      h.nLabels, h.qEnd, h.memWf⟩
    rw [show (s.writeReg v .status).status.busy = false from hb] at x; cases x
  case qName =>
    refine ⟨h.noResponse, h.response, h.qOutLen, ?_, h.busyDone, h.errStage, h.errCode, h.stage, h.offset, ?_,
      h.qEnd, h.memWf⟩
    · have := h.nameLen
      simp only [State.writeReg, QName.write, Config.nbufSize]
      split <;> assumption
    · have := h.nLabels
      simp only [State.writeReg, QName.write]
      split <;> assumption
  all_goals
    exact ⟨h.noResponse, h.response, h.qOutLen, h.nameLen, h.busyDone, h.errStage, h.errCode, h.stage, h.offset,
      h.nLabels, h.qEnd, h.memWf⟩

/-- A byte of the window that the map names lies in its buffer. -/
theorem placeOf_byte {a : WinAddr} {b : Buf} {i : Nat} (h : placeOf a = .byte b i) : isBufAddr (b.base + i) = true := by
  unfold placeOf at h
  split at h
  · split at h <;> cases h
  · split at h
    · simp only [Place.byte.injEq] at h
      obtain ⟨rfl, rfl⟩ := h
      exact isBufAddr_of (by simp only [Buf.base]; omega)
    · split at h
      · simp only [Place.byte.injEq] at h
        obtain ⟨rfl, rfl⟩ := h
        exact isBufAddr_of (by simp only [Buf.base]; omega)
      · split at h
        · cases h
        · split at h
          · simp only [Place.byte.injEq] at h
            obtain ⟨rfl, rfl⟩ := h
            exact isBufAddr_of (by simp only [Buf.base]; omega)
          · cases h

theorem Inv.writePlace {s : State} (h : Inv s) (hb : s.status.busy = false) (v : Word) (a : WinAddr) :
    Inv (s.writePlace v (placeOf a)) := by
  cases hp : placeOf a with
  | reg r => exact h.writeReg hb v r
  | byte b i =>
    have := placeOf_byte hp
    cases b
    · exact h.mem _ (wf_put _ _ _ this h.memWf)
    · exact h.mem _ (wf_put _ _ _ this h.memWf)
    · exact h
  | reserved => exact h

theorem Inv.busErrors {s : State} (h : Inv s) (w b : Bool) :
    Inv { s with status := { s.status with werr := w, berr := b } } :=
  ⟨h.noResponse, h.response, h.qOutLen, h.nameLen, h.busyDone, h.errStage, h.errCode, h.stage, h.offset,
    h.nLabels, h.qEnd, h.memWf⟩

/-- Every access, legal or refused, keeps the invariant. -/
theorem Inv.perform {s : State} (h : Inv s) (a : Access) : Inv (s.perform a) := by
  cases a with
  | read w a =>
    cases hl : legalAccess w a
    · rw [perform_read_refused s hl]; exact (h.busErrors s.status.werr true).env _
    · rw [perform_read_legal s hl]; exact h.env _
  | write w a v =>
    cases hb : s.status.busy
    · cases hl : legalAccess w a
      · rw [perform_write_refused s v hb hl]; exact (h.busErrors s.status.werr true).env _
      · rw [perform_write_legal s v hb hl]; exact (h.writePlace hb v a).env _
    · rw [perform_write_busy s v hb]; exact (h.busErrors true _).env _

end Sys2Proof.Machine
end

