-- ==== Sys2Proof/Laws/PerInstr.lean ====
section
/-! SUPPORT. What is said of every instruction as syntax, one lemma a constructor: its encoding is one of the defined words, with OP in bits 3:0 and RSV zero (30_encoding.md R90, R93). -/

namespace Sys2Proof.Laws.EncodesACommand

/-- The word of an instruction is a command word of format C that carries its opcode. -/
def Statement (i : Instr) : Prop :=
  isCommandWord (encode i) = true ∧ rsvField (encode i) = 0 ∧ opField (encode i) = opcode i

theorem nop : Statement .nop := by unfold Statement; decide
theorem hdrDecode : Statement .hdrDecode := by unfold Statement; decide
theorem hdrEncode : Statement .hdrEncode := by unfold Statement; decide
theorem qDecode : Statement .qDecode := by unfold Statement; decide
theorem qEncode : Statement .qEncode := by unfold Statement; decide
theorem compose : Statement .compose := by unfold Statement; decide
theorem process : Statement .process := by unfold Statement; decide
theorem clear : Statement .clear := by unfold Statement; decide

end Sys2Proof.Laws.EncodesACommand
end

