-- ==== Sys2Proof/Laws/Record.lean ====
section
/-! SUPPORT. The command record stands apart from the results: no stage of a command reads OUT_LEN, ERR_INFO or STATUS, so the stages of PROCESS are the bodies of the commands (42_control.md R194). -/

namespace Sys2Proof.Machine

/-- `s` with another command record. -/
def State.withRecord (s : State) (o : BitVec 10) (e : ErrInfo) (st : Status) : State :=
  { s with outLen := o, errInfo := e, status := st }

theorem dropResponse_eq_withRecord (s : State) :
    s.dropResponse = s.withRecord 0 s.errInfo { s.status with respValid := false } := rfl
theorem complete_eq_withRecord (s : State) :
    s.complete = s.withRecord s.outLen ⟨0, 0⟩ { s.status with busy := false, done := true, err := 0 } := rfl
theorem fail_eq_withRecord (s : State) (e : CmdError) :
    s.fail e = s.withRecord 0 ⟨e.stage.code, BitVec.ofNat 10 e.offset⟩
      { s.status with busy := false, done := true, respValid := false, err := e.kind.code } := rfl
theorem composeBody_eq_withRecord (s : State) :
    composeBody s = s.withRecord (BitVec.ofNat 10 (12 + s.qOutLen.toNat)) s.errInfo
      { s.status with respValid := true } := rfl

section
variable (s : State) (o o' : BitVec 10) (e e' : ErrInfo) (st st' : Status)

@[simp] theorem withRecord_withRecord : (s.withRecord o e st).withRecord o' e' st' = s.withRecord o' e' st' := rfl
@[simp] theorem withRecord_outLen : (s.withRecord o e st).outLen = o := rfl
@[simp] theorem withRecord_errInfo : (s.withRecord o e st).errInfo = e := rfl
@[simp] theorem withRecord_status : (s.withRecord o e st).status = st := rfl
@[simp] theorem withRecord_qOutLen : (s.withRecord o e st).qOutLen = s.qOutLen := rfl
@[simp] theorem withRecord_inLen : (s.withRecord o e st).inLen = s.inLen := rfl
@[simp] theorem withRecord_ctrl : (s.withRecord o e st).ctrl = s.ctrl := rfl
@[simp] theorem withRecord_buf (b : Buf) (i : Nat) : (s.withRecord o e st).buf b i = s.buf b i := rfl

@[simp] theorem hdrEncodeBody_withRecord :
    hdrEncodeBody (s.withRecord o e st) = (hdrEncodeBody s).withRecord o e st := rfl
@[simp] theorem qCommit_withRecord (c k : Nat) :
    qCommit (s.withRecord o e st) c k = (qCommit s c k).withRecord o e st := rfl
@[simp] theorem qEncodeBody_withRecord :
    qEncodeBody (s.withRecord o e st) = (qEncodeBody s).withRecord o e st := rfl
@[simp] theorem qScan_withRecord : qScan (s.withRecord o e st) = qScan s :=
  qScan_congr rfl rfl fun _ _ _ => rfl
end

/-- HDR_ENCODE touches no input of the question stage. -/
@[simp] theorem buf_ibuf_hdrEncodeBody (s : State) (i : Nat) (hi : i < 512) :
    (hdrEncodeBody s).buf .ibuf i = s.buf .ibuf i := by
  rw [State.buf, byteAt_hdrEncodeBody, if_neg (by simp only [Buf.base]; omega)]; rfl

@[simp] theorem buf_setHeader (s : State) (i f q a n r : Half) (b : Buf) (k : Nat) :
    (s.setHeader i f q a n r).buf b k = s.buf b k := rfl

/-- Neither the header registers nor the bytes of HDR_ENCODE move the question scan (41_question_codec.md R150). -/
theorem qScan_after_header {s t : State} (h : hdrDecodeBody s = .ok t) : qScan (hdrEncodeBody t) = qScan s := by
  obtain ⟨-, -, i, f, q, a, n, r, rfl⟩ := hdrDecodeBody_ok h
  exact qScan_congr rfl rfl fun k _ hk => by rw [buf_ibuf_hdrEncodeBody _ _ hk, buf_setHeader]

end Sys2Proof.Machine
end

