-- ==== Sys2Proof/Tests/Slice0.lean ====
section
/-! SUPPORT. Tests: ill-formed terms, words written out from 30_encoding.md R90 and R91, vectors of spec/95_test_vectors.md, and a witness for the hypotheses of each statement. -/

namespace Sys2Proof.Tests

open Sys2Proof.Machine

/-! ### Small states -/

/-- The reset state with CTRL set and a datagram loaded in IBUF, IN_LEN its length. -/
def holding (ctrl : Word) (bs : List Byte) : State :=
  { State.reset with
    ctrl := Ctrl.ofWord ctrl
    mem := Memory.putAll [] 0x400 bs
    inLen := BitVec.ofNat 10 bs.length }

/-- The state after a command. -/
def after (i : Instr) (s : State) : State :=
  match exec i s with
  | .next t => t
  | .fault _ => s
  | .refused _ => s

/-- The state after a step. -/
def stepped (s : State) : State :=
  match step s with
  | .next t => t
  | .fault _ => s
  | .refused _ => s

/-- The state after a legal 32-bit write to a register. -/
def wrote (r : Reg) (v : Word) (s : State) : State := s.perform (accessWr r v)

/-- The header of 95_test_vectors.md W1, W2 and of section 2.3. -/
def hdr : List Byte := [0x12, 0x34, 0x80, 0x00, 0x00, 0x01, 0x00, 0x00, 0x00, 0x00, 0x00, 0x00]

/-- The question of QD5: "abc.com", A, IN. -/
def abcCom : List Byte := [0x03, 0x61, 0x62, 0x63, 0x03, 0x63, 0x6F, 0x6D, 0x00, 0x00, 0x01, 0x00, 0x01]

/-- The datagram of W2. -/
def w2 : List Byte := hdr ++ abcCom

/-- The header bytes of HD1. -/
def hd1 : List Byte := [0xAB, 0xCD, 0x01, 0x20, 0x00, 0x02, 0x00, 0x03, 0x00, 0x04, 0x00, 0x05]

/-! ### Ill-formed terms are refused -/

theorem test_wf_reserved_bit : isCommandWord 0x0000_0010 = false := by decide
theorem test_wf_top_bit : isCommandWord 0x8000_0000 = false := by decide
theorem test_wf_reserved_op : isCommandWord 0x0000_0008 = false := by decide
theorem test_wf_command_word : isCommandWord 0x0000_0007 = true := by decide
theorem test_wf_instr : [Instr.nop, .hdrDecode, .hdrEncode, .qDecode, .qEncode, .compose, .process, .clear].all Instr.wf = true := by
  decide
theorem test_wf_ibuf_index : (HostOp.wrb .ibuf 512 0).wf [] = false := by decide
theorem test_wf_nbuf_index : (HostOp.rdb .nbuf 496).wf [] = false := by decide
theorem test_wf_obuf_index : (HostOp.rdb .obuf 511).wf [] = true := by decide
theorem test_wf_field : (RegField.mk .status 30 3).wf = false ∧ (RegField.mk .status 0 0).wf = false := by decide
theorem test_wf_undeclared_label : programWf [⟨[.named 1], .bnz .busy (.named 2)⟩] = false := by decide
theorem test_wf_duplicate_label : programWf [⟨[.named 1], .rd .status⟩, ⟨[.named 1], .rd .cmd⟩] = false := by decide
theorem test_wf_load_length : (SrcOp.load (List.replicate 513 0)).wf = false := by decide +kernel
theorem test_wf_setmode : (SrcOp.setmode 0 2 0 0).wf = false := by decide

/-! ### Words written out bit by bit -/

theorem test_decode_nop : decode 0b0000_0000_0000_0000_0000_0000_0000_0000 = .ok .nop := by rfl
theorem test_decode_hdrDecode : decode 0b0000_0000_0000_0000_0000_0000_0000_0001 = .ok .hdrDecode := by rfl
theorem test_decode_hdrEncode : decode 0b0000_0000_0000_0000_0000_0000_0000_0010 = .ok .hdrEncode := by rfl
theorem test_decode_qDecode : decode 0b0000_0000_0000_0000_0000_0000_0000_0011 = .ok .qDecode := by rfl
theorem test_decode_qEncode : decode 0b0000_0000_0000_0000_0000_0000_0000_0100 = .ok .qEncode := by rfl
theorem test_decode_compose : decode 0b0000_0000_0000_0000_0000_0000_0000_0101 = .ok .compose := by rfl
theorem test_decode_process : decode 0b0000_0000_0000_0000_0000_0000_0000_0110 = .ok .process := by rfl
theorem test_decode_clear : decode 0b0000_0000_0000_0000_0000_0000_0000_0111 = .ok .clear := by rfl
/-- IL2. -/
theorem test_decode_reserved_bits : decode 0x0000_0011 = .error .reservedBits := by rfl
/-- IL1. -/
theorem test_decode_reserved_op : decode 0x0000_0008 = .error .reservedOpcode := by rfl
theorem test_decodeTableWord : decodeTableWord 32 6 = some .process ∧ decodeTableWord 32 8 = none := by decide

/-! ### Vectors -/

/-- HD1. -/
theorem test_hdrDecode_full :
    let t := after .hdrDecode (holding 0x0 hd1)
    t.readReg .hId = 0x0000_ABCD ∧ t.readReg .hFlags = 0x0000_0120 ∧ t.readReg .hQdAn = 0x0003_0002 ∧
    t.readReg .hNsAr = 0x0005_0004 ∧ t.readReg .status = 0x0000_0002 := by decide +kernel

/-- HD3. -/
theorem test_hdrDecode_scopeZero :
    let t := after .hdrDecode (holding 0x2 ([0xAB, 0xCD, 0xFF, 0xFF] ++ hd1.drop 4))
    t.readReg .hFlags = 0x0000_8000 ∧ t.readReg .hQdAn = 0x0000_0001 ∧ t.readReg .hNsAr = 0 := by decide +kernel

/-- HE3. -/
theorem test_hdrEncode_policy :
    let s := { State.reset with
      hId := 0xABCD, hFlags := 0x2D83, hQdAn := 0x0003_0002, polQdAn := 0x0002_0001, polNsAr := 0x0004_0003 }
    (after .hdrEncode s).bytes .obuf 0 12 =
      [0xAB, 0xCD, 0x2D, 0x83, 0x00, 0x01, 0x00, 0x02, 0x00, 0x03, 0x00, 0x04] := by decide +kernel

/-- QD5, with STRICT and TWO_LABEL. -/
theorem test_qDecode_abcCom :
    let t := after .qDecode (holding 0xC w2)
    t.readReg .qName = 0x0002_0009 ∧ t.readReg .qTypeClass = 0x0001_0001 ∧ t.readReg .qEnd = 25 ∧
    t.bytes .nbuf 0 9 = [0x03, 0x61, 0x62, 0x63, 0x03, 0x63, 0x6F, 0x6D, 0x00] := by decide +kernel

/-- QD23: a label byte that looks like a length is not one. -/
theorem test_qDecode_label_data :
    let t := after .qDecode (holding 0x0 (hdr ++ [0x03, 0x78, 0x02, 0x79, 0x02, 0x61, 0x62, 0x00, 0x00, 0x01, 0x00, 0x01]))
    t.readReg .qName = 0x0002_0008 ∧ t.readReg .qEnd = 24 := by decide +kernel

/-- QE2. -/
theorem test_qEncode_empty_name :
    let t := after .qEncode { State.reset with qTypeClass := 0x00FF_0010 }
    t.bytes .obuf 12 4 = [0x00, 0x10, 0x00, 0xFF] ∧ t.readReg .qOutLen = 4 := by decide +kernel

/-- CP2. -/
theorem test_compose_reset :
    let t := after .compose State.reset
    t.readReg .outLen = 12 ∧ t.readReg .status = 0x0000_0006 := by decide +kernel

/-- W2, PR1. -/
theorem test_process_w2 :
    let t := after .process (holding 0x0 w2)
    t.readReg .outLen = 25 ∧ t.readReg .status = 0x0000_0006 ∧ t.responseBytes = w2 := by decide +kernel

/-- W5: the header is written, and the question stage fails. -/
theorem test_process_w5 :
    let t := after .process (holding 0x0 hdr)
    t.readReg .status = 0x0000_0102 ∧ t.readReg .errInfo = 0x000C_0003 ∧ t.readReg .hId = 0x0000_1234 ∧
    t.bytes .obuf 0 12 = hdr ∧ t.readReg .outLen = 0 := by decide +kernel

/-- CL1. -/
theorem test_clear_after_process :
    let t := after .clear (after .process (holding 0x0 w2))
    t.readReg .hId = 0 ∧ t.readReg .qEnd = 0 ∧ t.readReg .outLen = 0 ∧ t.readReg .status = 0x0000_0002 ∧
    t.readReg .inLen = 25 ∧ t.readReg .polQdAn = 1 ∧ t.bytes .obuf 0 25 = w2 := by decide +kernel

/-- NP1. -/
theorem test_nop_after_process :
    let t := after .nop (after .process (holding 0x0 w2))
    t.readReg .status = 0x0000_0006 ∧ t.readReg .outLen = 25 := by decide +kernel

/-- IL2. -/
theorem test_illegal_after_process :
    let t := stepped ((after .process (holding 0x0 w2)).withFetchWord 32 0x11)
    t.readReg .status = 0x0000_0502 ∧ t.readReg .errInfo = 0x0000_0001 ∧ t.readReg .cmd = 0x0000_0011 ∧
    t.readReg .hId = 0x0000_1234 := by decide +kernel

/-- HA1, HA2, HA5. -/
theorem test_bus_refused :
    let t := State.reset.perform (.read .w8 0x004)
    t.readReg .status = 0x0000_0010 ∧ (wrote .status 0x0000_0010 t).readReg .status = 0 ∧
    (State.reset.perform (.write .w32 0x400 0x1122_3344)).mem = [] := by decide +kernel

/-- HA10, HA11, QE4. -/
theorem test_bus_writable_fields :
    (wrote .inLen 0xFFFF_FFFF State.reset).readReg .inLen = 0x0000_03FF ∧
    (wrote .ctrl 0xFFFF_FFFF State.reset).readReg .ctrl = 0x0000_000F ∧
    (wrote .qName 0x0000_01F1 State.reset).readReg .qName = 0 := by decide +kernel

/-- The assembler: `run PROCESS` at source line 3 (30_encoding.md R101). -/
theorem test_expand_run :
    expandOp 3 (.run .process) =
      [⟨[], .cmd .process⟩, ⟨[.fresh 3], .rd .status⟩, ⟨[], .bnz .busy (.fresh 3)⟩] := by decide

/-! ### Witnesses: states and operands that meet the hypotheses of each statement -/

theorem witness_DecodeOfEncodeIsTheCommand : Instr.wf .process = true := by decide

theorem witness_StepExecutesTheLatchedCommand :
    let s := State.reset.accept 0x0000_0006
    s.status.busy = true ∧ decode s.lastCmd = .ok .process ∧ s.env.sched = [] := by decide

theorem witness_IllegalWordCompletesWithCodeFive :
    (State.reset.accept 0x0000_0010).status.busy = true ∧ (State.reset.accept 0x0000_0010).lastCmd >>> 4 ≠ 0 ∧
    8 ≤ ((State.reset.accept 0x0000_0008).lastCmd &&& 0xF).toNat := by decide

theorem witness_CmdWriteIsAcceptedOrLost :
    State.reset.status.busy = false ∧ (State.reset.accept 0).status.busy = true := by decide

theorem witness_AccessesDuringBusyLeaveTheCommandItsInput : (State.reset.accept 6).status.busy = true := by decide

theorem witness_IdleBlockKeepsItsState :
    State.reset.status.busy = false ∧ State.reset.env.sched = [] ∧ State.reset.hostHasWork = false := by decide

theorem witness_StepGoesOnWithAWellFormedProgram :
    programWf (assemble [⟨none, .run .process⟩, ⟨some 0, .core (.rd .qName)⟩]) = true := by decide

theorem witness_RefusedAccessSetsBerrAndNothingElse :
    let ok := fun (w : BusWidth) (a : WinAddr) => (a.toNat < 0x400 ∧ w = .w32 ∧ a.toNat % 4 = 0) ∨ (0x400 ≤ a.toNat ∧ w = .w8)
    ok .w32 0x000 ∧ ok .w32 0x3FC ∧ ok .w8 0x400 ∧ ok .w8 0xFFF ∧
    ¬ ok .w32 0x3FE ∧ ¬ ok .w8 0x3FF ∧ ¬ ok .w32 0x400 ∧ ¬ ok .w16 0x800 := by decide

theorem witness_LegalReadReturnsTheCurrentValue :
    isBufAddr (0x400 : WinAddr).toNat = true ∧ isBufAddr (0x7EF : WinAddr).toNat = true ∧
    isBufAddr (0x9FF : WinAddr).toNat = true ∧
    (0x400 ≤ (0x7F0 : WinAddr).toNat ∧ isBufAddr (0x7F0 : WinAddr).toNat = false) ∧
    (0x400 ≤ (0xA00 : WinAddr).toNat ∧ isBufAddr (0xA00 : WinAddr).toNat = false) := by decide

theorem witness_ReservedAddressesReadZeroAndIgnoreWrites :
    let res := fun (w : BusWidth) (a : WinAddr) =>
      (w = .w32 ∧ a.toNat % 4 = 0 ∧ 0x040 ≤ a.toNat ∧ a.toNat < 0x400) ∨
      (w = .w8 ∧ ((0x7F0 ≤ a.toNat ∧ a.toNat < 0x800) ∨ 0xA00 ≤ a.toNat))
    res .w32 0x040 ∧ res .w32 0x3FC ∧ res .w8 0x7F0 ∧ res .w8 0x7FF ∧ res .w8 0xA00 ∧ res .w8 0xFFF := by decide

theorem witness_LegalWriteStoresTheWritableFields :
    State.reset.status.busy = false ∧
    (0x01F0 : Word).toNat % 512 ≤ 496 ∧ 496 < (0x01F1 : Word).toNat % 512 ∧
    ((0x3FC : WinAddr).toNat % 4 = 0 ∧ 0x040 ≤ (0x3FC : WinAddr).toNat ∧ (0x3FC : WinAddr).toNat < 0x400) ∧
    (0x400 ≤ (0x5FF : WinAddr).toNat ∧ (0x5FF : WinAddr).toNat < 0x600) ∧
    (0x600 ≤ (0x7EF : WinAddr).toNat ∧ (0x7EF : WinAddr).toNat < 0x7F0) ∧
    0x7F0 ≤ (0x7F0 : WinAddr).toNat ∧ 0x7F0 ≤ (0xFFF : WinAddr).toNat := by decide

theorem witness_NameLenIsWarl :
    State.reset.status.busy = false ∧ ({ State.reset with qName := ⟨496, 2⟩ } : State).qName.nameLen.toNat ≤ 496 ∧
    (0x01F0 : Word).toNat % 512 ≤ 496 ∧ 496 < (0x01F1 : Word).toNat % 512 ∧
    ∃ t, step State.reset = .next t := by
  exact ⟨by decide, by decide, by decide, by decide, _, rfl⟩

theorem witness_IrqFollowsDoneAndIe : (holding 0x1 []).status.busy = false ∧ (after .nop (holding 0x1 [])).irq = true := by
  decide +kernel

theorem witness_ComposeMarksTheResponse : ({ State.reset with qOutLen := 500 } : State).qOutLen.toNat ≤ 500 := by decide

theorem witness_HdrDecodeFollowsItsRule :
    512 < ({ State.reset with inLen := 513 } : State).len ∧ (holding 0x0 (hdr.drop 1)).len < 12 ∧
    (12 ≤ (holding 0x0 hdr).len ∧ (holding 0x0 hdr).len ≤ 512 ∧ (holding 0x0 hdr).scopeZero = false) ∧
    (12 ≤ (holding 0x2 hdr).len ∧ (holding 0x2 hdr).len ≤ 512 ∧ (holding 0x2 hdr).scopeZero = true) := by
  decide +kernel

theorem witness_HeaderRoundTrip :
    12 ≤ (holding 0x2 hdr).len ∧ (holding 0x2 hdr).len ≤ 512 ∧ (holding 0x2 hdr).scopeZero = true ∧
    12 ≤ ({ State.reset with inLen := 512 } : State).len ∧ ({ State.reset with inLen := 512 } : State).len ≤ 512 ∧
    ({ State.reset with inLen := 512 } : State).scopeZero = false := by decide +kernel

theorem witness_QDecodeChecksLengthThenEmptyDomain :
    512 < ({ State.reset with inLen := 513 } : State).len ∧ (holding 0x0 hdr).len < 13 ∧
    (13 ≤ (holding 0x0 (hdr ++ [0x00])).len ∧ (holding 0x0 (hdr ++ [0x00])).len ≤ 512 ∧
      (holding 0x0 (hdr ++ [0x00])).buf .ibuf 12 = 0x00) := by decide +kernel

/-- The datagram of W2 holds a question in each mode, and QD1 holds the smallest one. -/
theorem witness_QDecodeCommitsTheQuestion :
    HasQuestion (holding 0x0 w2) [3, 3] 20 ∧ HasQuestion (holding 0xC w2) [3, 3] 20 ∧
    HasQuestion (holding 0x8 (hdr ++ [0x01, 0x61, 0x00, 0x00, 0x01, 0x00, 0x01])) [1] 14 := by
  refine ⟨⟨?_, ?_, ?_, ?_, ?_, ?_⟩, ⟨?_, ?_, ?_, ?_, ?_, ?_⟩, ⟨?_, ?_, ?_, ?_, ?_, ?_⟩⟩ <;>
    (try simp only [Walked, LabelFits]) <;> decide +kernel

/-- QD6 at the boundary in CHAIN, and a second label that overruns in TWO_LABEL with STRICT. -/
theorem witness_LabelOverrunIsMalformedAtLen :
    (let s := holding 0x0 (hdr ++ [0x03, 0x61, 0x62, 0x63]);
      13 ≤ s.len ∧ s.len ≤ 512 ∧ Walked s 12 [] 12 ∧ (s.twoLabel = true → ([] : List Nat).length < 2) ∧ s.lengthAt 12 ≠ 0 ∧
      (s.strict = true → s.lengthAt 12 < 0x40 ∧ (12 - 12) + 1 + s.lengthAt 12 + 1 ≤ 255) ∧
      s.len ≤ 12 + 1 + s.lengthAt 12) ∧
    (let s := holding 0xC (hdr ++ [0x01, 0x61, 0x02, 0x62]);
      13 ≤ s.len ∧ s.len ≤ 512 ∧ Walked s 12 [1] 14 ∧ (s.twoLabel = true → [1].length < 2) ∧ s.lengthAt 14 ≠ 0 ∧
      (s.strict = true → s.lengthAt 14 < 0x40 ∧ (14 - 12) + 1 + s.lengthAt 14 + 1 ≤ 255) ∧
      s.len ≤ 14 + 1 + s.lengthAt 14) := by
  simp only [Walked, LabelFits]
  decide +kernel

/-- QD16, and QD21's labels of 63, 63 and 63 bytes before one of 62. -/
theorem witness_StrictLimitIsMalformedAtTheCursor :
    (let s := holding 0x8 (hdr ++ [0x40]);
      13 ≤ s.len ∧ s.len ≤ 512 ∧ Walked s 12 [] 12 ∧ (s.twoLabel = true → ([] : List Nat).length < 2) ∧ s.lengthAt 12 ≠ 0 ∧ s.strict = true ∧
      0x40 ≤ s.lengthAt 12) ∧
    (let l63 : List Byte := 0x3F :: List.replicate 63 0x61;
      let s := holding 0x8 (hdr ++ l63 ++ l63 ++ l63 ++ [0x3E] ++ List.replicate 62 0x62 ++ [0, 0, 1, 0, 1]);
      13 ≤ s.len ∧ s.len ≤ 512 ∧ Walked s 12 [63, 63, 63] 204 ∧ (s.twoLabel = true → [63, 63, 63].length < 2) ∧ s.lengthAt 204 ≠ 0 ∧
      s.strict = true ∧ 255 < (204 - 12) + 1 + s.lengthAt 204 + 1) := by
  simp only [Walked, LabelFits]
  decide +kernel

/-- QD4 and QD2. -/
theorem witness_TwoLabelTerminatorChecks :
    (let s := holding 0x4 (hdr ++ [0x03, 0x77, 0x77, 0x77, 0x03, 0x61, 0x62, 0x63, 0x03, 0x63, 0x6F, 0x6D, 0x00]);
      13 ≤ s.len ∧ s.len ≤ 512 ∧ s.twoLabel = true ∧ Walked s 12 [3, 3] 20 ∧ s.lengthAt 20 ≠ 0) ∧
    (let s := holding 0x4 (hdr ++ [0x01, 0x61, 0x00, 0x00, 0x01, 0x00, 0x01]);
      13 ≤ s.len ∧ s.len ≤ 512 ∧ s.twoLabel = true ∧ Walked s 12 [1] 14 ∧ s.lengthAt 14 = 0) := by
  simp only [Walked, LabelFits]
  decide +kernel

/-- QD9. -/
theorem witness_MissingTypeOrClassIsMalformedAtLen :
    let s := holding 0x0 (hdr ++ [0x01, 0x61, 0x00, 0x00, 0x01, 0x00])
    s.len ≤ 512 ∧ Walked s 12 [1] 14 ∧ [1] ≠ [] ∧ (s.twoLabel = true → [1].length = 2) ∧ s.lengthAt 14 = 0 ∧ s.len ≤ 14 + 4 := by
  simp only [Walked, LabelFits]
  decide +kernel

/-- Two datagrams that differ in their labels' data and agree at the cursors 12, 16 and 20. -/
theorem witness_LabelDataNeverMovesABoundary :
    let m := (holding 0x0 (hdr ++ [0x03, 0x78, 0x02, 0x79, 0x03, 0x00, 0xFF, 0x40, 0x00, 0x00, 0x01, 0x00, 0x01])).mem
    m ≠ (holding 0x0 w2).mem ∧ cursors 12 [3, 3] = [12, 16, 20] ∧
    (∀ c, c ∈ cursors 12 [3, 3] →
      ({ holding 0x0 w2 with mem := m } : State).buf .ibuf c = (holding 0x0 w2).buf .ibuf c) := by
  refine ⟨by decide +kernel, by decide, fun c hc => ?_⟩
  rw [show cursors 12 [3, 3] = [12, 16, 20] by decide] at hc
  fin_cases hc <;> decide +kernel

/-- The state Q_DECODE leaves, after the host wrote another byte to IBUF. -/
theorem witness_QuestionRoundTrip_later_state :
    let t := after .qDecode (holding 0x4 w2)
    let v := { t with mem := t.mem.put 0x400 0xFF }
    v ≠ t ∧ v.qTypeClass = t.qTypeClass ∧ v.qName = t.qName ∧ ∀ k, k < 496 → v.buf .nbuf k = t.buf .nbuf k := by
  refine ⟨by decide +kernel, rfl, rfl, fun k _ => ?_⟩
  simp only [State.buf, State.byteAt, Buf.base]
  rw [find_put_other _ _ _ _ (by omega)]

theorem witness_QuestionRoundTrip : (after .qDecode (holding 0x4 w2)).status.err = 0 := by decide +kernel

/-- A datagram that fails at the header stage, one that fails at the question stage, one that is answered. -/
theorem witness_ProcessIsTheFiveCommandsInOrder :
    (after .hdrDecode State.reset).status.err ≠ 0 ∧
    ((after .hdrDecode (holding 0x0 hdr)).status.err = 0 ∧
      (after .qDecode (after .hdrEncode (after .hdrDecode (holding 0x0 hdr)))).status.err ≠ 0) ∧
    ((after .hdrDecode (holding 0x0 w2)).status.err = 0 ∧
      (after .qDecode (after .hdrEncode (after .hdrDecode (holding 0x0 w2)))).status.err = 0) := by decide +kernel

theorem witness_ProcessAnswersAQuestion : HasQuestion (holding 0x2 w2) [3, 3] 20 := by
  refine ⟨?_, ?_, ?_, ?_, ?_, ?_⟩ <;> (try simp only [Walked, LabelFits]) <;> decide +kernel

theorem witness_ProcessReportsTheFirstFailingStage :
    512 < ({ State.reset with inLen := 1023 } : State).len ∧ (holding 0x0 (hdr.drop 1)).len < 12 ∧
    (holding 0x0 hdr).len = 12 ∧
    ((holding 0x0 (hdr ++ [0x00])).len = 13 ∧ (holding 0x0 (hdr ++ [0x00])).buf .ibuf 12 = 0x00) := by decide +kernel

/-- A block that has answered another datagram, and a fresh one. -/
theorem witness_ProcessCarriesNothingOver :
    let s := holding 0x0 w2
    let s' := { after .process (holding 0x0 (hdr ++ [0x01, 0x61, 0x00, 0x00, 0x01, 0x00, 0x01])) with mem := s.mem, inLen := s.inLen }
    s' ≠ s ∧ s'.ctrl = s.ctrl ∧ s'.polQdAn = s.polQdAn ∧ s'.polNsAr = s.polNsAr ∧ s'.inLen = s.inLen ∧
    (∀ i, i < s.len → i < 512 → s'.buf .ibuf i = s.buf .ibuf i) := by
  refine ⟨by decide +kernel, by decide +kernel, by decide +kernel, by decide +kernel, by decide +kernel, ?_⟩
  intro i hi _
  have hi : i < 25 := hi
  interval_cases i <;> decide +kernel

theorem witness_ResponseLifecycle :
    (Instr.hdrDecode ≠ .nop ∧ Instr.hdrDecode ≠ .compose ∧ Instr.hdrDecode ≠ .process) ∧
    (after .process (holding 0x0 w2)).status.err = 0 ∧ (after .process (holding 0x0 hdr)).status.err ≠ 0 ∧
    ((State.reset.accept 8).status.busy = true ∧ decode (State.reset.accept 8).lastCmd = .error .reservedOpcode) := by
  decide +kernel

theorem witness_AFailingDecodeWritesNoResult :
    (after .hdrDecode State.reset).status.err ≠ 0 ∧ (after .qDecode (holding 0x0 hdr)).status.err ≠ 0 := by
  decide +kernel

theorem witness_OnlyTheNamedCommandsWriteAResult :
    Instr.nop ≠ .hdrDecode ∧ Instr.nop ≠ .hdrEncode ∧ Instr.nop ≠ .qDecode ∧ Instr.nop ≠ .qEncode ∧
    Instr.nop ≠ .process ∧ Instr.nop ≠ .clear := by decide

/-- The same datagram of 12 bytes, with and without a byte beyond its end. -/
theorem witness_BytesBeyondLenNeverMatter :
    AgreeBelowLen (holding 0x0 hdr) { holding 0x0 hdr with mem := (holding 0x0 hdr).mem.put 0x40C 0xAA } ∧
    ({ holding 0x0 hdr with mem := (holding 0x0 hdr).mem.put 0x40C 0xAA } : State) ≠ holding 0x0 hdr := by
  refine ⟨⟨rfl, fun a ha => ?_⟩, by decide +kernel⟩
  have hn : a ≠ 0x40C := by
    rintro rfl
    exact ha (by unfold beyondLen; decide +kernel)
  simp only [State.byteAt]
  rw [find_put_other _ _ _ _ hn]

/-- The block with a response standing meets the invariant, and its host has a next step. -/
theorem witness_EveryStepKeepsTheInvariant :
    Inv (after .process (holding 0x0 w2)) ∧ ∃ t, step (after .process (holding 0x0 w2)) = .next t := by
  refine ⟨?_, _, rfl⟩
  constructor <;> decide +kernel

theorem witness_HostOperationsMakeTheirTransaction :
    let s := { State.reset with env := { Env.idle with program := [bare (.wr .ctrl 1), bare (.rd .status)], pc := 1 } }
    s.env.pending = [] ∧ s.env.pc = 1 ∧ s.env.program[1]? = some (⟨[], .rd .status⟩ : Line) := by decide

/-- A host that has read STATUS once, with BUSY set and with BUSY clear. -/
theorem witness_BnzBranchesOnTheValueLastRead :
    let s := fun (d : Word) =>
      { State.reset with env := { Env.idle with program := expandWait 0, pc := 1, trace := [⟨accessRd .status, d⟩] } }
    (s 1).env.pending = [] ∧ (s 1).env.program[1]? = some (⟨[], .bnz .busy (.fresh 0)⟩ : Line) ∧
    lastRead .status (s 1).env.trace = some 1 ∧ findLabel (s 1).env.program (.fresh 0) 0 = some 0 ∧
    RegField.busy.get 1 ≠ 0 ∧ RegField.busy.get 2 = 0 := by decide

theorem witness_PseudoOperationsExpand :
    let s := { State.reset with env := { Env.idle with program := [bare .fetch] } }
    s.env.pending = [] ∧ s.env.program[s.env.pc]? = some (⟨[], .fetch⟩ : Line) := by decide

/-- A host that has read OUT_LEN = 25 after W2 owes 25 reads, the first of OBUF[0]. -/
theorem witness_PseudoOperationsExpand_owed :
    let s := after .process (holding 0x0 w2)
    let t := stepped { s with env := { s.env with program := [bare .fetch] } }
    t.env.pending = fetchReads 25 ∧ t.env.pending.head? = some (accessRdb .obuf 0) ∧
    t.env.pending.length = 25 := by decide +kernel

theorem witness_InstancesShareNoState :
    let ps : Platform := [⟨0x0000, 0, State.reset⟩, ⟨0x1000, 1, State.reset.accept 6⟩]
    ps[1]? = some ⟨0x1000, 1, State.reset.accept 6⟩ ∧ ∃ t, step (State.reset.accept 6) = .next t := by
  exact ⟨rfl, _, rfl⟩

end Sys2Proof.Tests
end

/-! PROOFS. The state: the invariant under every step, `irq`, the inputs no command writes, the writers of each result. -/

namespace Sys2Proof.Machine

/-! ### The invariant under a command -/

theorem hdrDecodeBody_status {s t : State} (h : hdrDecodeBody s = .ok t) : t.status = s.status := by
  obtain ⟨-, -, i, f, q, a, n, r, rfl⟩ := hdrDecodeBody_ok h
  rfl

theorem Inv.of_hdrDecodeBody {s t : State} (h : Inv s) (ht : hdrDecodeBody s = .ok t) : Inv t := by
  obtain ⟨-, -, i, f, q, a, n, r, rfl⟩ := hdrDecodeBody_ok ht
  exact h.header i f q a n r

/-- A commit of Q_DECODE's body is the commit of a question of the grammar. -/
theorem qDecodeBody_ok {s t : State} (h : qDecodeBody s = .ok t) :
    ∃ ls e, HasQuestion s ls e ∧ t = qCommit s e ls.length := by
  rcases qDecodeBody_cases s with ⟨x, hx, -⟩ | ⟨ls, e, hq, ho⟩
  · rw [hx] at h; cases h
  · rw [ho] at h
    exact ⟨ls, e, hq, (Except.ok.inj h).symm⟩

theorem qDecodeBody_status {s t : State} (h : qDecodeBody s = .ok t) : t.status = s.status := by
  obtain ⟨ls, e, -, rfl⟩ := qDecodeBody_ok h
  exact qCommit_status s e ls.length

theorem Inv.of_qDecodeBody {s t : State} (h : Inv s) (ht : qDecodeBody s = .ok t) : Inv t := by
  obtain ⟨ls, e, hq, rfl⟩ := qDecodeBody_ok ht
  exact h.qCommit hq

theorem qDecodeBody_offset {s : State} {x : CmdError} (h : qDecodeBody s = .error x) : x.offset ≤ 512 := by
  rcases qDecodeBody_cases s with ⟨y, hy, hs⟩ | ⟨ls, e, -, ho⟩
  · rw [hy] at h
    exact Except.error.inj h ▸ qScan_offset hs
  · rw [ho] at h; cases h

/-- The end of a command whose body may raise keeps the invariant when its error is in range and its
result meets it. -/
theorem Inv.of_finish {s : State} (h : Inv s) {r : Except CmdError State}
    (he : ∀ x, r = .error x → x.offset ≤ 512) (ho : ∀ t, r = .ok t → Inv t) : Inv (s.finish r) := by
  cases r with
  | error x => exact h.fail x (he x rfl)
  | ok t => exact (ho t rfl).complete

/-- The stages of PROCESS, where no response stands (42_control.md R194). -/
theorem Inv.of_processStages {s : State} (h : Inv s) (hr : s.status.respValid = false) :
    Inv (processStages s) := by
  rcases processStages_cases s with ⟨x, hx, hp⟩ | ⟨t, x, ht, hx, hp⟩ | ⟨t, u, ht, hu, hp⟩ <;> rw [hp]
  · exact h.fail x (hdrDecodeBody_offset hx)
  · exact (h.of_hdrDecodeBody ht).hdrEncode.fail x (qDecodeBody_offset hx)
  · have hru : u.status.respValid = false := by
      rw [qDecodeBody_status hu, hdrEncodeBody_status, hdrDecodeBody_status ht, hr]
    exact (((h.of_hdrDecodeBody ht).hdrEncode.of_qDecodeBody hu).qEncode hru).compose.complete

/-- Every command keeps the invariant. -/
theorem Inv.after_exec {s : State} (h : Inv s) (i : Instr) : ∃ t, exec i s = .next t ∧ Inv t := by
  have hd := h.dropResponse
  cases i
  case nop => exact ⟨_, exec_nop s, h.complete⟩
  case hdrDecode =>
    exact ⟨_, exec_hdrDecode s, hd.of_finish (fun _ => hdrDecodeBody_offset) (fun _ => hd.of_hdrDecodeBody)⟩
  case hdrEncode => exact ⟨_, exec_hdrEncode s, hd.hdrEncode.complete⟩
  case qDecode =>
    exact ⟨_, exec_qDecode s, hd.of_finish (fun _ => qDecodeBody_offset) (fun _ => hd.of_qDecodeBody)⟩
  case qEncode => exact ⟨_, exec_qEncode s, (hd.qEncode rfl).complete⟩
  case compose => exact ⟨_, exec_compose s, h.compose.complete⟩
  case process => exact ⟨_, exec_process s, hd.of_processStages rfl⟩
  case clear => exact ⟨_, exec_clear s, (hd.clear rfl).complete⟩

/-! ### The invariant under each turn -/

theorem Inv.after_engineTurn {s : State} (h : Inv s) : ∃ t, engineTurn s = .next t ∧ Inv t := by
  rw [engineTurn]
  split
  · split
    · exact h.after_exec _
    · exact ⟨_, rfl, h.dropResponse.fail .illegal (Nat.zero_le _)⟩
  · exact ⟨s, rfl, h⟩

/-- One operation of the host's program: accesses, and moves of the host that are no part of the block. -/
theorem Inv.of_hostLine {s t : State} (h : Inv s) {n : Nat} {op : HostOp} (ht : hostLine s n op = .next t) :
    Inv t := by
  cases op with
  | bnz f l =>
    rw [hostLine] at ht
    split at ht
    · exact Host.Outcome.next.inj ht ▸ h.env _
    · split at ht
      · exact Host.Outcome.next.inj ht ▸ h.env _
      · cases ht
  | fetch => exact Host.Outcome.next.inj ht ▸ ((h.perform (accessRd .outLen)).env _).env _
  | _ => exact Host.Outcome.next.inj ht ▸ (h.perform _).env _

theorem Inv.of_hostTurn {s t : State} (h : Inv s) (ht : hostTurn s = .next t) : Inv t := by
  rw [hostTurn] at ht
  split at ht
  · exact Host.Outcome.next.inj ht ▸ (h.env _).perform _
  · split at ht
    · exact h.of_hostLine ht
    · exact Host.Outcome.next.inj ht ▸ h

/-- The registers at reset are in range, and no byte is listed (10_state.md R45). -/
theorem inv_reset : Inv State.reset where
  noResponse _ := rfl
  response h := by cases h
  qOutLen := .inl rfl
  nameLen := Nat.zero_le _
  busyDone _ := rfl
  errStage := iff_of_true rfl rfl
  errCode := Nat.zero_le _
  stage := Nat.zero_le _
  offset := Nat.zero_le _
  nLabels := Nat.zero_le _
  qEnd := .inl rfl
  memWf := rfl

/-- The invariant does not speak of the counter of resets. -/
theorem Inv.epoch {s : State} (h : Inv s) (n : Nat) : Inv { s with epoch := n } :=
  ⟨h.noResponse, h.response, h.qOutLen, h.nameLen, h.busyDone, h.errStage, h.errCode, h.stage, h.offset,
    h.nLabels, h.qEnd, h.memWf⟩

theorem inv_rst (s : State) : Inv s.rst := (inv_reset.epoch (s.epoch + 1)).env s.env

theorem Inv.of_turnStep {s t : State} (h : Inv s) {u : Turn} (ht : turnStep u s = .next t) : Inv t := by
  cases u with
  | engine =>
    obtain ⟨t', ht', hi⟩ := h.after_engineTurn
    exact Host.Outcome.next.inj (ht'.symm.trans ht) ▸ hi
  | access a => exact Host.Outcome.next.inj ht ▸ h.perform a
  | hostOp => exact h.of_hostTurn ht
  | rst => exact Host.Outcome.next.inj ht ▸ inv_rst s

theorem Inv.after_takeTurn {s : State} (h : Inv s) : Inv (takeTurn s).2 := by
  rw [takeTurn_state]
  exact h.env _

/-- Settles O47: taking the turn changes the schedule only, and each kind of turn keeps the invariant. -/
theorem everyStepKeepsTheInvariant : Obligations.EveryStepKeepsTheInvariant :=
  fun _ _ h ht => h.after_takeTurn.of_turnStep ht

/-- Settles O46. -/
theorem resetMeetsTheInvariant : Obligations.ResetMeetsTheInvariant := inv_reset

/-! ### Writes to a register, and `irq` -/

/-- A write to a register's offset while BUSY = 0 is the register's write, recorded in the trace. -/
theorem accessStep_writeReg {s : State} (hb : s.status.busy = false) (r : Reg) (v : Word) :
    accessStep s (accessWr r v) = .next { s.writeReg v r with env := s.env.saw (accessWr r v) 0 } := by
  rw [accessStep_eq, accessWr, perform_write_legal s v hb (legalAccess_reg r), placeOf_reg]
  rfl

/-- A read of a register's offset returns the register's word and changes nothing. -/
theorem accessStep_readReg (s : State) (r : Reg) :
    accessStep s (accessRd r) = .next { s with env := s.env.saw (accessRd r) (s.readReg r) } := by
  rw [accessStep_eq, accessRd, perform_read_legal s (legalAccess_reg r), placeOf_reg]
  rfl

/-- Settles O8. -/
theorem cmdWriteIsAcceptedOrLost : Obligations.CmdWriteIsAcceptedOrLost := by
  refine ⟨fun s w => ⟨fun hb => ?_, fun hb => ?_, ?_⟩, rfl⟩
  · exact accessStep_writeReg hb .cmd w
  · have hl : legalAccess .w32 0x008 = true := legalAccess_reg .cmd
    rw [accessStep_eq, perform_write_busy s w hb, hl, Bool.not_true, Bool.or_false]
  · exact accessStep_readReg s .cmd

/-- A command leaves DONE = 1 and IE as it was. -/
theorem irq_after_exec (i : Instr) (s : State) : ∃ t, exec i s = .next t ∧ t.irq = s.ctrl.ie := by
  obtain ⟨t, ht, -, hdone, hkeep⟩ := exec_completes i s
  exact ⟨t, ht, by rw [State.irq, hdone, hkeep.ctrl, Bool.and_true]⟩

/-- Settles O17. -/
theorem irqFollowsDoneAndIe : Obligations.IrqFollowsDoneAndIe := by
  refine ⟨irq_after_exec, fun s v hb => ⟨?ctrl, ?status, ?cmd⟩, fun s => ?level⟩
  case ctrl => exact ⟨_, accessStep_writeReg hb .ctrl v, rfl⟩
  case status =>
    refine ⟨_, accessStep_writeReg hb .status v, ?_⟩
    exact (Bool.and_assoc _ _ _).symm
  case cmd =>
    refine ⟨_, accessStep_writeReg hb .cmd v, ?_⟩
    exact Bool.and_false _
  case level => exact Bool.and_eq_true_iff

/-! ### What a command writes, the command record apart -/

/-- `Writes i s b`: `b` is `s` after at most the writes the spec names for command `i`, the command record
apart (20_memory.md R67). PROCESS has no writes of its own: it runs the bodies of the others. -/
inductive Writes : Instr → State → State → Prop
  /-- NOP, COMPOSE, and a decode that fails. -/
  | nothing (i : Instr) (s : State) : Writes i s s
  | header (s : State) (i f q a n r : Half) : Writes .hdrDecode s (s.setHeader i f q a n r)
  | headerBytes (s : State) : Writes .hdrEncode s (hdrEncodeBody s)
  | question {s : State} {ls : List Nat} {e : Nat} (hq : HasQuestion s ls e) :
      Writes .qDecode s (qCommit s e ls.length)
  | questionBytes (s : State) : Writes .qEncode s (qEncodeBody s)
  | cleared (s : State) : Writes .clear s (clearBody s)

/-- Every command but PROCESS writes what the spec names for it and a command record. -/
theorem exec_writes {i : Instr} (hi : i ≠ .process) (s : State) :
    ∃ b o e st, exec i s = .next (b.withRecord o e st) ∧ Writes i s b := by
  cases i
  case nop => exact ⟨s, _, _, _, rfl, .nothing _ s⟩
  case hdrDecode =>
    cases h : hdrDecodeBody s.dropResponse with
    | error x => exact ⟨s, _, _, _, by rw [exec_hdrDecode, h]; rfl, .nothing _ s⟩
    | ok t =>
      obtain ⟨-, -, i, f, q, a, n, r, rfl⟩ := hdrDecodeBody_ok h
      exact ⟨s.setHeader i f q a n r, _, _, _, by rw [exec_hdrDecode, h]; rfl, .header s i f q a n r⟩
  case hdrEncode => exact ⟨hdrEncodeBody s, _, _, _, rfl, .headerBytes s⟩
  case qDecode =>
    cases hs : qScan s with
    | error x => exact ⟨s, _, _, _, exec_qDecode_error hs, .nothing _ s⟩
    | ok ck =>
      obtain ⟨ls, hq, -⟩ := (qScan_ok_iff s ck.1 ck.2).1 hs
      exact ⟨qCommit s ck.1 ls.length, _, _, _, exec_qDecode_question hq, .question hq⟩
  case qEncode => exact ⟨qEncodeBody s, _, _, _, rfl, .questionBytes s⟩
  case compose => exact ⟨s, _, _, _, rfl, .nothing _ s⟩
  case process => exact absurd rfl hi
  case clear => exact ⟨clearBody s, _, _, _, rfl, .cleared s⟩

@[simp] theorem byteAt_withRecord (s : State) (o : BitVec 10) (e : ErrInfo) (st : Status) (a : Nat) :
    (s.withRecord o e st).byteAt a = s.byteAt a := rfl

/-! ### The bytes each body leaves -/

/-- HDR_ENCODE writes into OBUF only. -/
theorem byteAt_hdrEncodeBody_below (s : State) {a : Nat} (ha : a < 0x800) :
    (hdrEncodeBody s).byteAt a = s.byteAt a := by
  rw [byteAt_hdrEncodeBody, if_neg (by omega)]

/-- Q_ENCODE writes nothing below OBUF[12]. -/
theorem byteAt_qEncodeBody_below (s : State) {a : Nat} (ha : a < 0x80C) :
    (qEncodeBody s).byteAt a = s.byteAt a := by
  rw [byteAt_qEncodeBody, if_neg (by omega)]

/-- The commit of a question writes into NBUF only. -/
theorem byteAt_qCommit_outside {s : State} {ls : List Nat} {e : Nat} (hq : HasQuestion s ls e) {a : Nat}
    (ha : a < 0x600 ∨ 0x7F0 ≤ a) : (qCommit s e ls.length).byteAt a = s.byteAt a := by
  obtain ⟨-, he, -⟩ := hq.bounds
  rw [byteAt_qCommit]
  split
  · rw [List.getElem?_eq_none (by rw [bytes_length]; omega), Option.getD_none]
  · rfl

/-! ### Who writes what -/

section
variable {i : Instr} {s b : State}

/-- No command writes IBUF. -/
theorem Writes.byteAt_ibuf (w : Writes i s b) {a : Nat} (ha : a < 0x600) : b.byteAt a = s.byteAt a := by
  cases w with
  | headerBytes => exact byteAt_hdrEncodeBody_below s (by omega)
  | question hq => exact byteAt_qCommit_outside hq (.inl ha)
  | questionBytes => exact byteAt_qEncodeBody_below s (by omega)
  | _ => rfl

/-- Only Q_DECODE writes NBUF. -/
theorem Writes.byteAt_nbuf (w : Writes i s b) (h : i ≠ .qDecode) {a : Nat} (ha : a < 0x7F0) :
    b.byteAt a = s.byteAt a := by
  cases w with
  | headerBytes => exact byteAt_hdrEncodeBody_below s (by omega)
  | question => exact absurd rfl h
  | questionBytes => exact byteAt_qEncodeBody_below s (by omega)
  | _ => rfl

/-- Only the encoders write OBUF. -/
theorem Writes.byteAt_obuf (w : Writes i s b) (h : i ≠ .hdrEncode) (h' : i ≠ .qEncode) {a : Nat}
    (ha : 0x800 ≤ a) : b.byteAt a = s.byteAt a := by
  cases w with
  | headerBytes => exact absurd rfl h
  | question hq => exact byteAt_qCommit_outside hq (.inr (by omega))
  | questionBytes => exact absurd rfl h'
  | _ => rfl

/-- Only HDR_DECODE and CLEAR write the header registers. -/
theorem Writes.header_kept (w : Writes i s b) (h : i ≠ .hdrDecode) (h' : i ≠ .clear) :
    b.hId = s.hId ∧ b.hFlags = s.hFlags ∧ b.hQdAn = s.hQdAn ∧ b.hNsAr = s.hNsAr := by
  cases w with
  | header => exact absurd rfl h
  | cleared => exact absurd rfl h'
  | _ => simp

/-- Only Q_DECODE and CLEAR write the question registers. -/
theorem Writes.question_kept (w : Writes i s b) (h : i ≠ .qDecode) (h' : i ≠ .clear) :
    b.qTypeClass = s.qTypeClass ∧ b.qName = s.qName ∧ b.qEnd = s.qEnd := by
  cases w with
  | question => exact absurd rfl h
  | cleared => exact absurd rfl h'
  | _ => simp

/-- Only Q_ENCODE and CLEAR write Q_OUT_LEN. -/
theorem Writes.qOutLen_kept (w : Writes i s b) (h : i ≠ .qEncode) (h' : i ≠ .clear) : b.qOutLen = s.qOutLen := by
  cases w with
  | questionBytes => exact absurd rfl h
  | cleared => exact absurd rfl h'
  | _ => simp
end

/-- No stage of PROCESS writes IBUF. -/
theorem byteAt_processStages_ibuf (s : State) {a : Nat} (ha : a < 0x600) :
    (processStages s).byteAt a = s.byteAt a := by
  have hdr : ∀ {t}, hdrDecodeBody s = .ok t → (hdrEncodeBody t).byteAt a = s.byteAt a := fun {t} ht => by
    obtain ⟨-, -, i, f, q, c, n, r, rfl⟩ := hdrDecodeBody_ok ht
    rw [byteAt_hdrEncodeBody_below _ (by omega), byteAt_setHeader]
  rcases processStages_cases s with ⟨x, -, hp⟩ | ⟨t, x, ht, -, hp⟩ | ⟨t, u, ht, hu, hp⟩ <;> rw [hp]
  · exact byteAt_fail s x a
  · rw [byteAt_fail, hdr ht]
  · obtain ⟨ls, e, hq, rfl⟩ := qDecodeBody_ok hu
    rw [byteAt_complete, byteAt_composeBody, byteAt_qEncodeBody_below _ (by omega),
      byteAt_qCommit_outside hq (.inl ha), hdr ht]

/-- No command writes IBUF. -/
theorem byteAt_exec_ibuf {i : Instr} {s t : State} (ht : exec i s = .next t) {a : Nat} (ha : a < 0x600) :
    t.byteAt a = s.byteAt a := by
  by_cases hi : i = .process
  · subst hi
    rw [← Host.Outcome.next.inj ht, byteAt_processStages_ibuf _ ha, byteAt_dropResponse]
  · obtain ⟨b, o, e, st, hb, hw⟩ := exec_writes hi s
    rw [← Host.Outcome.next.inj (hb.symm.trans ht), byteAt_withRecord, hw.byteAt_ibuf ha]

/-- Settles O43. -/
theorem noCommandWritesItsInputs : Obligations.NoCommandWritesItsInputs := by
  intro i s
  obtain ⟨t, ht, -, -, hk⟩ := exec_completes i s
  refine ⟨t, ht, hk.ctrl, hk.inLen, hk.polQdAn, hk.polNsAr, hk.lastCmd, hk.epoch, hk.env, fun k hlt => ?_⟩
  exact byteAt_exec_ibuf ht (by simp only [Buf.base]; omega)

/-- Settles O44: PROCESS is among the writers of every result, and each other command writes only what
`Writes` lists. -/
theorem onlyTheNamedCommandsWriteAResult : Obligations.OnlyTheNamedCommandsWriteAResult := by
  intro i s
  by_cases hi : i = .process
  · obtain ⟨t, ht, -⟩ := exec_completes i s
    exact ⟨t, ht, fun _ h => absurd hi h, fun _ h => absurd hi h, fun _ h => absurd hi h, fun _ h => absurd hi h,
      fun _ _ h => absurd hi h⟩
  · obtain ⟨b, o, e, st, ht, hw⟩ := exec_writes hi s
    refine ⟨_, ht, fun h _ h' => hw.header_kept h h', fun h _ h' => hw.question_kept h h',
      fun h _ h' => hw.qOutLen_kept h h', fun h _ k hk => ?nbuf, fun h h' _ k _ => ?obuf⟩
    case nbuf => exact hw.byteAt_nbuf h (by simp only [Buf.base]; omega)
    case obuf => exact hw.byteAt_obuf h h' (Nat.le_add_right _ _)

/-! ### The fields of H_FLAGS -/

/-- The bits from `lo` up are the field of width `w` at `lo` and the bits above it. -/
theorem toNat_shift_eq_field_add {n : Nat} (f : BitVec n) (lo w : Nat) :
    f.toNat >>> lo = (f.extractLsb' lo w).toNat + 2 ^ w * (f.toNat >>> (lo + w)) := by
  rw [BitVec.extractLsb'_toNat, Nat.shiftRight_add, Nat.shiftRight_eq_div_pow _ w, Nat.mod_add_div]

/-- Settles O22: from RCODE up, each field is split off the bits above it. -/
theorem flagFieldsMakeUpTheImage : Obligations.FlagFieldsMakeUpTheImage := by
  intro f
  have top : f.toNat >>> 16 = 0 := by
    rw [Nat.shiftRight_eq_div_pow]
    exact Nat.div_eq_of_lt f.isLt
  calc f.toNat = f.toNat >>> 0 := rfl
    _ = _ := by
      rw [toNat_shift_eq_field_add f 0 4, toNat_shift_eq_field_add f 4 3, toNat_shift_eq_field_add f 7 1,
        toNat_shift_eq_field_add f 8 1, toNat_shift_eq_field_add f 9 1, toNat_shift_eq_field_add f 10 1,
        toNat_shift_eq_field_add f 11 4, toNat_shift_eq_field_add f 15 1, top]
      simp only [flagQr, flagOpcode, flagAa, flagTc, flagRd, flagRa, flagZ, flagRcode]
      ring

end Sys2Proof.Machine

/-! PROOFS. The window: refused and reserved accesses, the byte order of wire fields, and that no command reads an IBUF byte at or above LEN. -/

namespace Sys2Proof.Machine

/-! ### Agreement below LEN (20_memory.md R78) -/

/-- Two answers of a decode body that are alike: the same error, or states that agree below LEN. -/
inductive AgreeResults : Except CmdError State → Except CmdError State → Prop
  | error (x : CmdError) : AgreeResults (.error x) (.error x)
  | ok {u v : State} (h : AgreeBelowLen u v) : AgreeResults (.ok u) (.ok v)

namespace AgreeBelowLen

section
variable {s t : State} (h : AgreeBelowLen s t)
include h

/-! #### What such states read alike -/

theorem inLen_eq : t.inLen = s.inLen := by rw [h.1]
theorem ctrl_eq : t.ctrl = s.ctrl := by rw [h.1]
theorem len_eq : t.len = s.len := congrArg BitVec.toNat h.inLen_eq
theorem scopeZero_eq : t.scopeZero = s.scopeZero := congrArg Ctrl.hdrMode h.ctrl_eq
theorem polQdcount_eq : t.polQdcount = s.polQdcount := by rw [h.1]; rfl
theorem nameLen_eq : t.nameLen = s.nameLen := by rw [h.1]; rfl

theorem buf_ibuf_eq {i : Nat} (hi : i < s.len) : t.buf .ibuf i = s.buf .ibuf i :=
  h.2 _ fun hb => by
    have := hb.1
    simp only [Buf.base] at this
    omega

theorem buf_nbuf_eq (i : Nat) : t.buf .nbuf i = s.buf .nbuf i :=
  h.2 _ fun hb => by
    have := hb.2
    simp only [Buf.base] at this
    omega

theorem memRead2_eq {i : Nat} (hi : i + 1 < s.len) : t.memRead2 .ibuf i = s.memRead2 .ibuf i := by
  rw [State.memRead2, State.memRead2, h.buf_ibuf_eq (by omega), h.buf_ibuf_eq hi]

theorem qScan_eq : qScan t = qScan s := qScan_congr h.inLen_eq h.ctrl_eq fun _ hi _ => h.buf_ibuf_eq hi

theorem headerBytes_eq : headerBytes t = headerBytes s := by rw [h.1]; rfl

theorem questionBytes_eq : questionBytes t = questionBytes s := by
  have hname : t.bytes .nbuf 0 s.nameLen = s.bytes .nbuf 0 s.nameLen := bytes_congr fun _ _ => h.buf_nbuf_eq _
  rw [questionBytes, h.nameLen_eq, hname, h.1]
  rfl

/-! #### What keeps them in agreement -/

/-- An update that neither reads nor writes a byte, and keeps IN_LEN. -/
theorem map {f : State → State} (hf : ∀ m n, f { s with mem := m, epoch := n } = { f s with mem := m, epoch := n })
    (hl : (f s).inLen = s.inLen) : AgreeBelowLen (f s) (f t) := by
  have hs : f s = { f s with mem := s.mem, epoch := s.epoch } := hf s.mem s.epoch
  have hbs (a : Nat) : (f s).byteAt a = s.byteAt a := by rw [hs]; rfl
  have ht : f t = { f s with mem := t.mem, epoch := t.epoch } := (congrArg f h.1).trans (hf t.mem t.epoch)
  rw [ht]
  refine ⟨rfl, fun a ha => ?_⟩
  rw [hbs]
  exact h.2 a (by rwa [beyondLen, State.len, hl] at ha)

theorem dropResponse : AgreeBelowLen s.dropResponse t.dropResponse := h.map (fun _ _ => rfl) rfl
theorem complete : AgreeBelowLen s.complete t.complete := h.map (fun _ _ => rfl) rfl
theorem compose : AgreeBelowLen (composeBody s) (composeBody t) := h.map (fun _ _ => rfl) rfl
theorem clear : AgreeBelowLen (clearBody s) (clearBody t) := h.map (fun _ _ => rfl) rfl

theorem fail (x : CmdError) : AgreeBelowLen (s.fail x) (t.fail x) :=
  h.map (f := fun s => s.fail x) (fun _ _ => rfl) rfl

theorem setHeader (i f q a n r : Half) : AgreeBelowLen (s.setHeader i f q a n r) (t.setHeader i f q a n r) :=
  h.map (f := fun s => s.setHeader i f q a n r) (fun _ _ => rfl) rfl

/-- The same bytes written to both. -/
theorem putBytes (b : Buf) (i : Nat) (bs : List Byte) : AgreeBelowLen (s.putBytes b i bs) (t.putBytes b i bs) := by
  refine ⟨by rw [h.1]; rfl, fun a ha => ?_⟩
  rw [byteAt_putBytes, byteAt_putBytes, h.2 a ha]

theorem hdrEncode : AgreeBelowLen (hdrEncodeBody s) (hdrEncodeBody t) := by
  rw [hdrEncodeBody, hdrEncodeBody, h.headerBytes_eq]
  exact h.putBytes .obuf 0 _

theorem qEncode : AgreeBelowLen (qEncodeBody s) (qEncodeBody t) := by
  rw [qEncodeBody, qEncodeBody, h.questionBytes_eq, h.nameLen_eq]
  exact (h.putBytes .obuf 12 _).map (f := fun u => { u with qOutLen := _ }) (fun _ _ => rfl) rfl

/-- A terminator with TYPE and CLASS below LEN: everything the commit reads is below LEN. -/
theorem commit {c : Nat} (k : Nat) (hc : c + 4 < s.len) : AgreeBelowLen (qCommit s c k) (qCommit t c k) := by
  have hname : t.bytes .ibuf 12 (c + 1 - 12) = s.bytes .ibuf 12 (c + 1 - 12) :=
    bytes_congr fun j hj => h.buf_ibuf_eq (by omega)
  rw [qCommit, qCommit, hname, h.memRead2_eq (by omega), h.memRead2_eq (by omega)]
  exact (h.putBytes .nbuf 0 _).map (f := fun u => { u with qTypeClass := _, qName := _, qEnd := _ })
    (fun _ _ => rfl) rfl

/-! #### The decodes and PROCESS -/

/-- The twelve header bytes are below LEN. -/
theorem fullExtract (h12 : 12 ≤ s.len) : AgreeBelowLen (hdrFullExtract s) (hdrFullExtract t) := by
  simp (disch := omega) only [hdrFullExtract, h.memRead2_eq]
  exact h.setHeader _ _ _ _ _ _

theorem scopeZero (h12 : 12 ≤ s.len) : AgreeBelowLen (hdrScopeZero s) (hdrScopeZero t) := by
  rw [hdrScopeZero, hdrScopeZero, h.memRead2_eq (by omega), h.buf_ibuf_eq (by omega), h.polQdcount_eq]
  exact h.setHeader _ _ _ _ _ _

theorem hdrDecode : AgreeResults (hdrDecodeBody s) (hdrDecodeBody t) := by
  rw [hdrDecodeBody, hdrDecodeBody, h.len_eq, h.scopeZero_eq]
  split
  · exact .error _
  · obtain ⟨h12, -⟩ := (hdrCheck_none_iff _).1 ‹_›
    split
    · exact .ok (h.scopeZero h12)
    · exact .ok (h.fullExtract h12)

theorem qDecode : AgreeResults (qDecodeBody s) (qDecodeBody t) := by
  rw [qDecodeBody, qDecodeBody, h.qScan_eq]
  split
  · exact .error _
  · obtain ⟨ls, hq, -⟩ := (qScan_ok_iff s _ _).1 ‹_›
    exact .ok (h.commit _ hq.typeClass)

/-- The end of a command whose bodies answer alike. -/
theorem finish {r r' : Except CmdError State} (hr : AgreeResults r r') : AgreeBelowLen (s.finish r) (t.finish r') := by
  cases hr with
  | error x => exact h.fail x
  | ok hu => exact hu.complete

theorem process : AgreeBelowLen (processStages s) (processStages t) := by
  have hh := h.hdrDecode
  unfold processStages
  generalize hdrDecodeBody s = r at hh ⊢
  generalize hdrDecodeBody t = r' at hh ⊢
  cases hh with
  | error x => exact h.fail x
  | @ok u v hu =>
    have hq := hu.hdrEncode.qDecode
    simp only
    generalize qDecodeBody (hdrEncodeBody u) = r at hq ⊢
    generalize qDecodeBody (hdrEncodeBody v) = r' at hq ⊢
    cases hq with
    | error x => exact hu.hdrEncode.fail x
    | ok hw => exact hw.qEncode.compose.complete

end
end AgreeBelowLen

/-- Settles O45: each command's body keeps states in agreement, as every IBUF byte it reads is below LEN. -/
theorem bytesBeyondLenNeverMatter : Obligations.BytesBeyondLenNeverMatter := by
  intro i s t h
  have hd := h.dropResponse
  cases i
  case nop => exact ⟨_, _, exec_nop s, exec_nop t, h.complete⟩
  case hdrDecode => exact ⟨_, _, exec_hdrDecode s, exec_hdrDecode t, hd.finish hd.hdrDecode⟩
  case hdrEncode => exact ⟨_, _, exec_hdrEncode s, exec_hdrEncode t, hd.hdrEncode.complete⟩
  case qDecode => exact ⟨_, _, exec_qDecode s, exec_qDecode t, hd.finish hd.qDecode⟩
  case qEncode => exact ⟨_, _, exec_qEncode s, exec_qEncode t, hd.qEncode.complete⟩
  case compose => exact ⟨_, _, exec_compose s, exec_compose t, h.compose.complete⟩
  case process => exact ⟨_, _, exec_process s, exec_process t, hd.process⟩
  case clear => exact ⟨_, _, exec_clear s, exec_clear t, hd.clear.complete⟩

/-! ### Refused and reserved accesses -/

/-- No write to a place of the map sets BERR (20_memory.md R64). -/
theorem berr_of_writePlace {s : State} {v : Word} {p : Place} (h : (s.writePlace v p).status.berr = true) :
    s.status.berr = true := by
  rcases p with r | ⟨b, i⟩ | _
  · cases r
    case status => exact (Bool.and_eq_true_iff.1 h).1
    all_goals exact h
  · cases b <;> exact h
  · exact h

/-- Settles O12: the refused accesses are those `legalAccess` denies, and no place of the map sets BERR. -/
theorem refusedAccessSetsBerrAndNothingElse : Obligations.RefusedAccessSetsBerrAndNothingElse := by
  intro s w a v
  simp only [accessStep_eq, ← legalAccess_iff]
  refine ⟨fun hn => ?refused, fun hl => ?legal⟩
  case refused =>
    have hl : legalAccess w a = false := Bool.eq_false_iff.2 hn
    refine ⟨by rw [perform_read_refused s hl], ?_⟩
    cases hb : s.status.busy
    · simp [perform_write_refused s v hb hl, hb]
    · simp [perform_write_busy s v hb, hl, hb]
  case legal =>
    refine ⟨⟨_, by rw [perform_read_legal s hl]⟩, _, rfl, fun ht => ?_⟩
    cases hb : s.status.busy
    · rw [perform_write_legal s v hb hl] at ht
      exact berr_of_writePlace ht
    · rw [perform_write_busy s v hb, hl, Bool.not_true, Bool.or_false] at ht
      exact ht

/-- Settles O14: a reserved address is legal at its region's width and names no place of the map. -/
theorem reservedAddressesReadZeroAndIgnoreWrites : Obligations.ReservedAddressesReadZeroAndIgnoreWrites := by
  intro s a v w h
  have hl : legalAccess w a = true :=
    (legalAccess_iff w a).2 (h.imp (fun ⟨hw, h4, _, hhi⟩ => ⟨hhi, hw, h4⟩) fun ⟨hw, ha⟩ => ⟨by omega, hw⟩)
  have hp : placeOf a = .reserved := by
    rcases h with ⟨-, -, hlo, hhi⟩ | ⟨-, ha⟩
    · exact placeOf_reserved_reg hlo hhi
    · exact placeOf_reserved_buf ha
  rw [accessStep_eq, accessStep_eq]
  refine ⟨by rw [perform_read_legal s hl, hp]; rfl, ?_⟩
  cases hb : s.status.busy
  · rw [perform_write_legal s v hb hl, hp, Bool.or_false]
    rfl
  · rw [perform_write_busy s v hb, hl, Bool.not_true, Bool.or_false, Bool.or_true]

/-! ### The byte order of a wire field -/

theorem toNat_hi8 (v : Half) : (hi8 v).toNat = v.toNat / 256 := by
  have := v.isLt
  rw [hi8, BitVec.extractLsb'_toNat, Nat.shiftRight_eq_div_pow]
  omega

theorem toNat_lo8 (v : Half) : (lo8 v).toNat = v.toNat % 256 := by
  rw [lo8, BitVec.extractLsb'_toNat, Nat.shiftRight_zero]

theorem toNat_be16 (h l : Byte) : (be16 h l).toNat = 256 * h.toNat + l.toNat := by
  rw [be16, toNat_append]
  omega

/-- Settles O21: the byte order of `be16`, `hi8` and `lo8`, and the two bytes a write leaves. -/
theorem wireFieldsAreBigEndian : Obligations.WireFieldsAreBigEndian := by
  refine ⟨fun s b a => ?read, fun s b a v => ⟨?high, ?low⟩⟩
  case read => exact toNat_be16 _ _
  case high =>
    rw [← toNat_hi8]
    exact congrArg BitVec.toNat (byteAt_putBytes_inside s b a 0 (wireBytes v) Nat.zero_lt_two)
  case low =>
    rw [← toNat_lo8]
    exact congrArg BitVec.toNat (byteAt_putBytes_inside s b a 1 (wireBytes v) Nat.one_lt_two)

end Sys2Proof.Machine

/-! PROOFS. The encodings: the one word of each mnemonic, the question grammar Q_DECODE accepts, and the host's operations and pseudo-operations. -/

namespace Sys2Proof.Machine

/-! ### The opcode map (30_encoding.md R90 to R93) -/

/-- A word is its two fields, RSV above OP. -/
theorem rsvField_append_opField (w : Word) : rsvField w ++ opField w = w :=
  BitVec.extractLsb'_append_extractLsb'

theorem encodesACommand (i : Instr) : Laws.EncodesACommand.Statement i := by
  cases i
  case nop => exact Laws.EncodesACommand.nop
  case hdrDecode => exact Laws.EncodesACommand.hdrDecode
  case hdrEncode => exact Laws.EncodesACommand.hdrEncode
  case qDecode => exact Laws.EncodesACommand.qDecode
  case qEncode => exact Laws.EncodesACommand.qEncode
  case compose => exact Laws.EncodesACommand.compose
  case process => exact Laws.EncodesACommand.process
  case clear => exact Laws.EncodesACommand.clear

/-- The decoder reads the two fields of format C and nothing else. -/
theorem decode_ok_iff_fields (w : Word) (i : Instr) :
    decode w = .ok i ↔ rsvField w = 0 ∧ opField w = opcode i := by
  have hop : ∀ o : BitVec 4, decode (0#28 ++ o) = .ok i ↔ o = opcode i := by
    cases i <;> decide
  by_cases hr : rsvField w = 0
  · rw [← hop, and_iff_right hr]
    conv_lhs => rw [← rsvField_append_opField w, hr]
    rfl
  · rw [decode, if_pos hr]
    exact iff_of_false nofun fun h => hr h.1

/-- The words decoding refuses, by their fields. -/
theorem decode_error_iff_fields (w : Word) :
    (∃ e, decode w = .error e) ↔ rsvField w ≠ 0 ∨ 8 ≤ (opField w).toNat := by
  rw [decode]
  split
  · exact iff_of_true ⟨_, rfl⟩ (.inl ‹_›)
  · rename_i hr
    split
    case h_9 =>
      simp only [imp_false] at *
      exact iff_of_true ⟨_, rfl⟩ (.inr (by omega))
    all_goals exact iff_of_false nofun fun h => h.elim hr fun h => by omega

/-- The command words are the encodings. -/
theorem decode_ok_iff (w : Word) (i : Instr) : decode w = .ok i ↔ w = encode i := by
  rw [decode_ok_iff_fields]
  constructor
  · rintro ⟨hr, ho⟩
    rw [← rsvField_append_opField w, hr, ho]
    rfl
  · rintro rfl
    exact (encodesACommand i).2

theorem decode_encode (i : Instr) : decode (encode i) = .ok i := (decode_ok_iff _ i).2 rfl

theorem toNat_rsvField (w : Word) : (rsvField w).toNat = (w >>> 4).toNat := by
  have := w.isLt
  rw [rsvField, BitVec.extractLsb'_toNat, BitVec.toNat_ushiftRight, Nat.shiftRight_eq_div_pow]
  omega

theorem toNat_opField (w : Word) : (opField w).toNat = (w &&& 0xF).toNat := by
  rw [opField, BitVec.extractLsb'_toNat, Nat.shiftRight_zero, BitVec.toNat_and]
  exact (Nat.and_two_pow_sub_one_eq_mod w.toNat 4).symm

/-- RSV is zero exactly when no bit of 31:4 is set. -/
theorem rsvField_eq_zero_iff (w : Word) : rsvField w = 0 ↔ w >>> 4 = 0 := by
  rw [← BitVec.toNat_inj, ← BitVec.toNat_inj, toNat_rsvField]
  rfl

/-- Settles O4. -/
theorem decodeOfEncodeIsTheCommand : Obligations.DecodeOfEncodeIsTheCommand := fun i _ => decode_encode i

/-- Settles O3: the command words are the encodings, and a word is refused by RSV or by OP. -/
theorem eachMnemonicHasExactlyOneWord : Obligations.EachMnemonicHasExactlyOneWord := by
  refine fun w => ⟨fun i => ?one, ?refused⟩
  case one => cases i <;> exact decode_ok_iff w _
  case refused => rw [decode_error_iff_fields, ne_eq, rsvField_eq_zero_iff, toNat_opField]

/-- Settles O5: the four command words are encodings. -/
theorem writtenOutWordsDecode : Obligations.WrittenOutWordsDecode :=
  ⟨decode_encode .hdrDecode, decode_encode .hdrEncode, decode_encode .qDecode, decode_encode .process,
    rfl, rfl, rfl⟩

/-! ### The question grammar (30_encoding.md R97) -/

/-- A scan that fails has no question of the grammar to find. -/
theorem not_hasQuestion_of_qScan_error {s : State} {x : CmdError} (h : qScan s = .error x) (ls : List Nat)
    (e : Nat) : ¬ HasQuestion s ls e := fun hq => by
  rw [(qScan_ok_iff s e ls.length).2 ⟨ls, hq, rfl⟩] at h
  cases h

/-- Settles O27: Q_DECODE records no error exactly when its scan succeeds, and it does on the grammar. -/
theorem qDecodeAcceptsExactlyTheGrammar : Obligations.QDecodeAcceptsExactlyTheGrammar := by
  intro s
  cases hs : qScan s with
  | error x =>
    refine ⟨_, exec_qDecode_error hs, iff_of_false (code_ne_zero x.kind) ?_⟩
    rintro ⟨ls, e, hq⟩
    exact not_hasQuestion_of_qScan_error hs ls e hq
  | ok ck =>
    obtain ⟨ls, hq, -⟩ := (qScan_ok_iff s ck.1 ck.2).1 hs
    exact ⟨_, exec_qDecode_question hq, iff_of_true rfl ⟨ls, ck.1, hq⟩⟩

/-! ### The host's turn (30_encoding.md R100) -/

/-- A host that owes accesses makes the first of them. -/
theorem hostStep_owed {s : State} {a : Access} {rest : List Access} (h : s.env.pending = a :: rest) :
    hostStep s = .next ((s.owe rest).perform a) := by
  rw [hostStep_eq, hostTurn, h]

/-- A host that owes no access runs the line its program stands at. -/
theorem hostStep_line {s : State} {ln : Line} (hp : s.env.pending = [])
    (hl : s.env.program[s.env.pc]? = some ln) : hostStep s = hostLine s s.env.pc ln.op := by
  rw [hostStep_eq, hostTurn, hp]
  simp only [hl]

/-- Settles O48: each operation is `hostLine`'s access at the register's offset or the buffer's base. -/
theorem hostOperationsMakeTheirTransaction : Obligations.HostOperationsMakeTheirTransaction := by
  rintro s _ ls hp rfl
  have line {op : HostOp} (hl : s.env.program[s.env.pc]? = some ⟨ls, op⟩) : hostStep s = hostLine s s.env.pc op :=
    hostStep_line hp hl
  exact ⟨fun _ _ => line, fun _ => line, fun _ _ => line, fun _ _ => line, fun _ _ => line, fun _ => line,
    fun _ => line, fun _ => line, fun _ => line⟩

theorem seen_of_lastRead {s : State} {r : Reg} {v : Word} (h : lastRead r s.env.trace = some v) : s.seen r = v := by
  rw [State.seen, h, Option.getD_some]

/-- Settles O49: `bnz` tests the value last read, and the line the label search finds carries the label. -/
theorem bnzBranchesOnTheValueLastRead : Obligations.BnzBranchesOnTheValueLastRead := by
  intro s ls f l v k hp hl hv hk
  refine ⟨?_, (findLabel_some hk).2⟩
  rw [hostStep_line hp hl, hostLine, seen_of_lastRead hv, hk, ite_not]
  split <;> rfl

/-! ### The pseudo-operations (30_encoding.md R101) -/

theorem expandLoad_length (i : Nat) (bs : List Byte) : (expandLoad i bs).length = bs.length := by
  induction bs generalizing i with
  | nil => rfl
  | cons b bs ih => rw [expandLoad, List.length_cons, ih, List.length_cons]

/-- Line `k` of a load writes its byte `k`. -/
theorem expandLoad_getElem? (i k : Nat) (bs : List Byte) :
    (expandLoad i bs)[k]? = bs[k]?.map fun b => bare (.wrb .ibuf (i + k) b) := by
  induction bs generalizing i k with
  | nil => rfl
  | cons b bs ih =>
    cases k with
    | zero => rfl
    | succ k => rw [expandLoad, List.getElem?_cons_succ, List.getElem?_cons_succ, ih, Nat.add_right_comm, Nat.add_assoc]

theorem fetchReads_length (n : Nat) : (fetchReads n).length = n := by
  rw [fetchReads, List.length_map, List.length_range]

/-- Read `i` of a fetch is of byte `i` of OBUF. -/
theorem fetchReads_getElem? {n i : Nat} (h : i < n) : (fetchReads n)[i]? = some (accessRdb .obuf i) := by
  rw [fetchReads, List.getElem?_map, List.getElem?_range h, Option.map_some]

/-- A read of a register changes the trace only. -/
theorem perform_accessRd (s : State) (r : Reg) :
    s.perform (accessRd r) = { s with env := s.env.saw (accessRd r) (s.readReg r) } :=
  Host.Outcome.next.inj (accessStep_readReg s r)

/-- After a read of a register the value last read from it is the one it held. -/
theorem seen_perform_accessRd (s : State) (r : Reg) : (s.perform (accessRd r)).seen r = s.readReg r := by
  rw [perform_accessRd]
  exact seen_of_lastRead (if_pos rfl)

/-- The line of a `fetch`: one read of OUT_LEN, and the reads of the response's bytes are owed. -/
theorem hostLine_fetch (s : State) (n : Nat) :
    hostLine s n .fetch =
      .next (((s.perform (accessRd .outLen)).owe (fetchReads s.outLen.toNat)).goto (n + 1)) := by
  have hn : (s.readReg .outLen).toNat = s.outLen.toNat := BitVec.toNat_setWidth_of_le (by decide)
  rw [hostLine, seen_perform_accessRd, hn]

/-- Settles O50. -/
theorem pseudoOperationsExpand : Obligations.PseudoOperationsExpand := by
  refine ⟨fun _ => rfl, fun _ _ => rfl, fun n bs => ⟨?length, ?bytes, ?inLen⟩, fun _ => rfl, fun _ _ _ _ _ => rfl,
    ?fetch, fun s a rest h => ⟨hostStep_owed h, ?owed⟩⟩
  case length => rw [expandOp, List.length_append, expandLoad_length, List.length_singleton]
  case bytes =>
    intro k b hk
    obtain ⟨hlt, -⟩ := List.getElem?_eq_some_iff.1 hk
    rw [expandOp, List.getElem?_append_left (by rwa [expandLoad_length]), expandLoad_getElem?, hk, Nat.zero_add]
    rfl
  case inLen =>
    rw [expandOp, List.getElem?_append_right (by rw [expandLoad_length]), expandLoad_length, Nat.sub_self]
    rfl
  case fetch =>
    intro s ls hp hl
    refine ⟨_, (hostStep_line hp hl).trans (hostLine_fetch s s.env.pc), ?_, ?_, fetchReads_length _,
      fun i hi => fetchReads_getElem? hi⟩ <;> rw [perform_accessRd]
    · rfl
    · rfl
  case owed => rw [perform_env]; rfl

end Sys2Proof.Machine

/-! PROOFS. The Header Codec: what HDR_DECODE answers in each case, the twelve bytes of HDR_ENCODE, and the round trip. -/

namespace Sys2Proof.Machine

/-! ### HDR_DECODE (40_header_codec.md R121, R122) -/

/-- A failing header check records its error and nothing else (60_exceptions.md R236). -/
theorem exec_hdrDecode_error {s : State} {x : CmdError} (h : hdrDecodeBody s.dropResponse = .error x) :
    exec .hdrDecode s = .next (FailedWith s x.kind.code x.stage.code x.offset) := by
  rw [exec_hdrDecode, h]; rfl

/-- A length in range is one of the two extractions, completed with no response. -/
theorem exec_hdrDecode_extracts {s : State} (h1 : 12 ≤ s.len) (h2 : s.len ≤ 512) :
    exec .hdrDecode s =
      .next (if s.scopeZero then hdrScopeZero s.dropResponse else hdrFullExtract s.dropResponse).complete := by
  rw [exec_hdrDecode, hdrDecodeBody_succeeds (s := s.dropResponse) h1 h2]; rfl

/-- Settles O23. -/
theorem hdrDecodeFollowsItsRule : Obligations.HdrDecodeFollowsItsRule := by
  refine ⟨rfl, fun s => ⟨fun h => ?oversize, fun h => ?truncated, fun h1 h2 hs => ?fullExtract,
    fun h1 h2 hs => ?scopeZero⟩⟩
  case oversize => exact exec_hdrDecode_error (hdrDecodeBody_oversize (s := s.dropResponse) h)
  case truncated => exact exec_hdrDecode_error (hdrDecodeBody_truncated (s := s.dropResponse) h)
  case fullExtract => rw [exec_hdrDecode_extracts h1 h2, hs]; rfl
  case scopeZero => rw [exec_hdrDecode_extracts h1 h2, hs, ← scopeZeroFlags_eq]; rfl

/-! ### HDR_ENCODE (40_header_codec.md R123) -/

/-- After HDR_ENCODE the first twelve bytes of OBUF are the header's. -/
theorem bytes_hdrEncodeBody (s : State) : (hdrEncodeBody s).bytes .obuf 0 12 = headerBytes s :=
  bytes_putBytes s .obuf 0 (headerBytes s)

/-- Settles O24. -/
theorem hdrEncodeWritesTheTwelveBytes : Obligations.HdrEncodeWritesTheTwelveBytes :=
  ⟨rfl, fun s => ⟨_, exec_hdrEncode s, rfl, bytes_hdrEncodeBody s.dropResponse,
    sameBytesOutside_putBytes (b := .obuf) (i := 0) (fun _ => rfl) rfl (headerBytes_length s)⟩⟩

/-! ### The round trip (40_header_codec.md R124) -/

/-- The two bytes of a field that is read are the two bytes it is written as. -/
theorem wireBytes_memRead2 (s : State) (b : Buf) (a : Nat) : wireBytes (s.memRead2 b a) = s.bytes b a 2 := by
  rw [wireBytes, State.memRead2, hi8_be16, lo8_be16]; rfl

/-- The header HDR_ENCODE leaves, cut into ID, flags and counts. -/
theorem hdrEncodeBody_fields (s : State) :
    (hdrEncodeBody s).bytes .obuf 0 2 = wireBytes s.hId ∧
    (hdrEncodeBody s).bytes .obuf 2 2 = wireBytes s.hFlags ∧
    (hdrEncodeBody s).bytes .obuf 4 8 =
      wireBytes s.polQdcount ++ wireBytes s.polAncount ++ wireBytes s.polNscount ++ wireBytes s.polArcount := by
  have h : (hdrEncodeBody s).bytes .obuf 0 2 ++ ((hdrEncodeBody s).bytes .obuf 2 2 ++ (hdrEncodeBody s).bytes .obuf 4 8)
      = wireBytes s.hId ++ (wireBytes s.hFlags ++ (wireBytes s.polQdcount ++ wireBytes s.polAncount
        ++ wireBytes s.polNscount ++ wireBytes s.polArcount)) := by
    rw [← bytes_add _ _ 2 2 8, ← bytes_add _ _ 0 2 10]
    exact bytes_hdrEncodeBody s
  obtain ⟨hid, h⟩ := List.append_inj h (bytes_length _ _ _ _)
  obtain ⟨hflags, hcounts⟩ := List.append_inj h (bytes_length _ _ _ _)
  exact ⟨hid, hflags, hcounts⟩

/-- What HDR_DECODE leaves for the round trip: its ID, the flags of the mode, and the policy as it was. -/
theorem exec_hdrDecode_header {s : State} (h1 : 12 ≤ s.len) (h2 : s.len ≤ 512) :
    ∃ t, exec .hdrDecode s = .next t ∧ t.status.err = 0 ∧ t.polQdAn = s.polQdAn ∧ t.polNsAr = s.polNsAr ∧
      t.hId = s.memRead2 .ibuf 0 ∧ (s.scopeZero = false → t.hFlags = s.memRead2 .ibuf 2) ∧
      (s.scopeZero = true → t.hFlags = be16 (s.buf .ibuf 2 &&& 0x80) 0) := by
  refine ⟨_, exec_hdrDecode_extracts h1 h2, rfl, ?_⟩
  cases s.scopeZero
  · exact ⟨rfl, rfl, rfl, fun _ => rfl, nofun⟩
  · exact ⟨rfl, rfl, rfl, nofun, fun _ => scopeZeroFlags_eq _⟩

/-- Settles O25: HDR_ENCODE writes the fields back as they were read, and SCOPE_ZERO keeps QR alone of the flags. -/
theorem headerRoundTrip : Obligations.HeaderRoundTrip := by
  intro s h1 h2
  obtain ⟨t, ht, herr, hqdan, hnsar, hid, hfull, hzero⟩ := exec_hdrDecode_header h1 h2
  refine ⟨t, ht, herr, fun v vid vflags vqdan vnsar => ⟨_, exec_hdrEncode v, ?_⟩⟩
  obtain ⟨uid, uflags, ucounts⟩ := hdrEncodeBody_fields v.dropResponse
  have uqr : (hdrEncodeBody v.dropResponse).buf .obuf 2 = hi8 v.hFlags := (List.cons.inj uflags).1
  refine ⟨uid.trans ?id, (congrArg (BitVec.getLsbD · 7) uqr).trans ?qr, fun hs => uflags.trans ?full,
    fun hs => uflags.trans ?zero, ucounts.trans ?counts⟩
  case id => rw [dropResponse_hId, vid, hid, wireBytes_memRead2]
  case qr =>
    rw [vflags]
    cases hs : s.scopeZero
    · rw [hfull hs, State.memRead2, hi8_be16]
    · rw [hzero hs, hi8_be16, BitVec.getLsbD_and]
      exact Bool.and_true _
  case full => rw [dropResponse_hFlags, vflags, hfull hs, wireBytes_memRead2]
  case zero => rw [dropResponse_hFlags, vflags, hzero hs, wireBytes, hi8_be16, lo8_be16]
  case counts =>
    simp only [State.polQdcount, State.polAncount, State.polNscount, State.polArcount, dropResponse_polQdAn,
      dropResponse_polNsAr, vqdan, vnsar, hqdan, hnsar]

end Sys2Proof.Machine

/-! PROOFS. The Question Codec: the checks of Q_DECODE in their order, the commit of a question, the bytes of Q_ENCODE, and the round trip. -/

namespace Sys2Proof.Machine

/-! ### The length checks and the empty domain (41_question_codec.md R153, R154) -/

theorem qScan_oversize {s : State} (h : 512 < s.len) : qScan s = .error .oversize := by
  rw [qScan, qLenCheck, if_pos h]

theorem qScan_truncated {s : State} (h : s.len < 13) : qScan s = .error (.truncated .question s.len) := by
  rw [qScan, qLenCheck, if_neg (show ¬ s.len > 512 by omega), if_pos h]

theorem qScan_emptyDomain {s : State} (h1 : 13 ≤ s.len) (h2 : s.len ≤ 512) (h0 : s.lengthAt 12 = 0) :
    qScan s = .error .emptyDomain := by
  rw [qScan, (qLenCheck_none_iff _).2 ⟨h1, h2⟩]
  exact if_pos h0

/-- Settles O26. -/
theorem qDecodeChecksLengthThenEmptyDomain : Obligations.QDecodeChecksLengthThenEmptyDomain := by
  refine fun s => ⟨fun h => ?oversize, fun h => ?truncated, fun h1 h2 h0 => ?emptyDomain⟩
  case oversize => exact exec_qDecode_error (qScan_oversize h)
  case truncated => exact exec_qDecode_error (qScan_truncated h)
  case emptyDomain => exact exec_qDecode_error (qScan_emptyDomain h1 h2 (congrArg BitVec.toNat h0))

/-! ### A malformed question (41_question_codec.md R157 to R162) -/

/-- A scan that stops at offset `d` records MALFORMED_QUESTION there and nothing else. -/
theorem exec_qDecode_malformed {s : State} {d : Nat} (h : qScan s = .error (.malformed d)) :
    exec .qDecode s = .next (FailedWith s 3 3 d) :=
  exec_qDecode_error h

/-- Settles O29: the overrun is the check that stops the walk. -/
theorem labelOverrunIsMalformedAtLen : Obligations.LabelOverrunIsMalformedAtLen :=
  fun s _ c h1 h2 hw ht hl hs ho =>
    exec_qDecode_malformed (qScan_stuck h1 h2 hw ht hl (checkLabel_overrun s c _ hs ho))

/-- Settles O30: a STRICT limit is the check that stops the walk. -/
theorem strictLimitIsMalformedAtTheCursor : Obligations.StrictLimitIsMalformedAtTheCursor :=
  fun s _ c h1 h2 hw ht hl hs hlim =>
    exec_qDecode_malformed (qScan_stuck h1 h2 hw ht hl (checkLabel_strict s c _ hs hlim))

/-- A third length byte that is no terminator ends the TWO_LABEL walk (41_question_codec.md R159(a)). -/
theorem walkTwo_third_label {s : State} {a b c : Nat} (hw : Walked s 12 [a, b] c) (hl : s.lengthAt c ≠ 0) :
    walkTwo s = .error (.malformed c) := by
  obtain ⟨h1, h2, h3, hw2⟩ := hw
  have hp1 : twoLabelPass s 12 = .ok (12 + 1 + a) := twoLabelPass_walked ⟨h1, h2, h3, rfl⟩
  rw [walkTwo, hp1]
  simp only [twoLabelPass_walked hw2, if_neg hl]

/-- A zero second length ends the TWO_LABEL walk (41_question_codec.md R159(b)). -/
theorem walkTwo_one_label {s : State} {a c : Nat} (hw : Walked s 12 [a] c) (hz : s.lengthAt c = 0) :
    walkTwo s = .error (.malformed c) := by
  have hp2 : twoLabelPass s c = .error (.malformed c) := if_pos hz
  rw [walkTwo, twoLabelPass_walked hw]
  simp only [hp2]

/-- In TWO_LABEL the scan of a datagram whose first length is not zero ends where its walk raises. -/
theorem qScan_walkTwo_error {s : State} {x : CmdError} (h1 : 13 ≤ s.len) (h2 : s.len ≤ 512)
    (ht : s.twoLabel = true) (h0 : s.lengthAt 12 ≠ 0) (hx : walkTwo s = .error x) : qScan s = .error x := by
  rw [qScan_eq_walk h1 h2 h0, walk, if_pos ht, hx]

/-- Settles O31. -/
theorem twoLabelTerminatorChecks : Obligations.TwoLabelTerminatorChecks := by
  refine fun s ls c h1 h2 ht hw => ⟨fun hlen hl => ?third, fun hlen hz => ?one⟩
  case third =>
    obtain ⟨a, b, rfl⟩ := List.length_eq_two.1 hlen
    exact exec_qDecode_malformed
      (qScan_walkTwo_error h1 h2 ht (hw.first (List.cons_ne_nil _ _)) (walkTwo_third_label hw hl))
  case one =>
    obtain ⟨a, rfl⟩ := List.length_eq_one_iff.1 hlen
    exact exec_qDecode_malformed
      (qScan_walkTwo_error h1 h2 ht (hw.first (List.cons_ne_nil _ _)) (walkTwo_one_label hw hz))

/-- A walk to a terminator whose TYPE and CLASS do not lie below LEN ends the scan at LEN
(41_question_codec.md R160). -/
theorem qScan_missing_typeClass {s : State} {ls : List Nat} {c : Nat} (h2 : s.len ≤ 512) (hw : Walked s 12 ls c)
    (hne : ls ≠ []) (ht : s.twoLabel = true → ls.length = 2) (hz : s.lengthAt c = 0) (hc : s.len ≤ c + 4) :
    qScan s = .error (.malformed s.len) := by
  have hle := hw.le
  have hlt := hw.lt_len hne
  have h1 : 13 ≤ s.len := by omega
  have hwalk : walk s = .ok (c, ls.length) := (walk_ok_iff s h1 _ _).2 ⟨ls, hw, hz, rfl, ht⟩
  rw [qScan_eq_walk h1 h2 (hw.first hne), hwalk]
  exact if_pos hc

/-- Settles O32. -/
theorem missingTypeOrClassIsMalformedAtLen : Obligations.MissingTypeOrClassIsMalformedAtLen :=
  fun _ _ _ h2 hw hne ht hz hc => exec_qDecode_malformed (qScan_missing_typeClass h2 hw hne ht hz hc)

/-! ### The commit of a question (41_question_codec.md R161, R168) -/

/-- The numbers of a question fit their registers. -/
theorem HasQuestion.qCommit_toNat {s : State} {ls : List Nat} {e : Nat} (h : HasQuestion s ls e) :
    (qCommit s e ls.length).nameLen = e + 1 - 12 ∧
    (qCommit s e ls.length).qName.nLabels.toNat = ls.length ∧
    (qCommit s e ls.length).qEnd.toNat = e + 5 := by
  obtain ⟨-, he, -, hls, -⟩ := h.bounds
  refine ⟨?_, ?_, ?_⟩ <;> exact Nat.mod_eq_of_lt (by omega)

/-- After the commit NBUF begins with the name as the datagram holds it. -/
theorem bytes_qCommit (s : State) (c k : Nat) :
    (qCommit s c k).bytes .nbuf 0 (c + 1 - 12) = s.bytes .ibuf 12 (c + 1 - 12) := by
  have h := bytes_putBytes s .nbuf 0 (s.bytes .ibuf 12 (c + 1 - 12))
  rw [bytes_length] at h
  exact h

/-- Settles O28. -/
theorem qDecodeCommitsTheQuestion : Obligations.QDecodeCommitsTheQuestion := by
  refine ⟨rfl, fun s ls e hq => ⟨_, exec_qDecode_question hq, rfl, ?_⟩⟩
  obtain ⟨h14, h507, -⟩ := hq.bounds
  obtain ⟨hname, hlabels, hend⟩ := hq.dropResponse.qCommit_toNat
  exact ⟨hname, by omega, by omega, hlabels, hend, bytes_qCommit s.dropResponse e ls.length,
    sameBytesOutside_putBytes (b := .nbuf) (i := 0) (fun _ => rfl) rfl (bytes_length _ _ _ _)⟩

/-- Settles O33: the other memory holds the same question, and the registers are committed from its
terminator and label count. -/
theorem labelDataNeverMovesABoundary : Obligations.LabelDataNeverMovesABoundary := by
  intro s m ls e hq hm
  have hq' : HasQuestion { s with mem := m } ls e :=
    HasQuestion.congr (s := s) (t := { s with mem := m }) rfl rfl (fun c hc => congrArg BitVec.toNat (hm c hc)) hq
  refine ⟨_, _, exec_qDecode_question hq, exec_qDecode_question hq', rfl, rfl, ?name, ?qEnd⟩
  case name => rw [complete_qName, complete_qName, qCommit_qName, qCommit_qName]
  case qEnd => rw [complete_qEnd, complete_qEnd, qCommit_qEnd, qCommit_qEnd]

/-! ### Q_ENCODE (41_question_codec.md R166) -/

/-- NAME_LEN + 4 always fits Q_OUT_LEN. -/
theorem qEncodeBody_qOutLen_toNat (s : State) : (qEncodeBody s).qOutLen.toNat = s.nameLen + 4 := by
  have := nameLen_lt s
  exact Nat.mod_eq_of_lt (by omega)

/-- After Q_ENCODE the bytes of OBUF from 12 up are the question's. -/
theorem bytes_qEncodeBody (s : State) : (qEncodeBody s).bytes .obuf 12 (s.nameLen + 4) = questionBytes s := by
  have h := bytes_putBytes s .obuf 12 (questionBytes s)
  rw [questionBytes_length] at h
  exact h

/-- Settles O34. -/
theorem qEncodeWritesNameTypeClass : Obligations.QEncodeWritesNameTypeClass := by
  refine ⟨rfl, fun s => ⟨_, exec_qEncode s, rfl, qEncodeBody_qOutLen_toNat s.dropResponse, ?bytes, ?frame⟩⟩
  case bytes => exact (bytes_qEncodeBody s.dropResponse).trans (List.append_assoc _ _ _)
  case frame =>
    exact sameBytesOutside_putBytes (b := .obuf) (i := 12) (fun _ => rfl) rfl (questionBytes_length s)

/-! ### The round trip (41_question_codec.md R167) -/

/-- The name in NBUF with TYPE and CLASS, as a commit leaves them, is the stretch of the datagram from
offset 12 to the end of CLASS. -/
theorem questionBytes_of_qCommit {s v : State} {c k : Nat} (htc : v.qTypeClass = (qCommit s c k).qTypeClass)
    (hn : 12 + v.nameLen = c + 1) (hb : v.bytes .nbuf 0 v.nameLen = s.bytes .ibuf 12 v.nameLen) :
    questionBytes v = s.bytes .ibuf 12 (v.nameLen + 4) := by
  have htype : v.qType = s.memRead2 .ibuf (c + 1) := by rw [State.qType, htc]; exact lowHalf_packHalves _ _
  have hclass : v.qClass = s.memRead2 .ibuf (c + 3) := by rw [State.qClass, htc]; exact highHalf_packHalves _ _
  calc questionBytes v
      = s.bytes .ibuf 12 v.nameLen ++ s.bytes .ibuf (c + 1) 2 ++ s.bytes .ibuf (c + 3) 2 := by
        rw [questionBytes, hb, htype, hclass, wireBytes_memRead2, wireBytes_memRead2]
    _ = s.bytes .ibuf 12 v.nameLen ++ s.bytes .ibuf (12 + v.nameLen) 4 := by
        rw [List.append_assoc, hn, bytes_add s .ibuf (c + 1) 2 2]
    _ = s.bytes .ibuf 12 (v.nameLen + 4) := (bytes_add s .ibuf 12 _ 4).symm

/-- Settles O35: Q_ENCODE writes back the stretch of the datagram that the commit took. -/
theorem questionRoundTrip : Obligations.QuestionRoundTrip := by
  intro s
  cases hs : qScan s with
  | error x => exact ⟨_, exec_qDecode_error hs, fun h => absurd h (code_ne_zero x.kind)⟩
  | ok ck =>
    obtain ⟨ls, hq, -⟩ := (qScan_ok_iff s ck.1 ck.2).1 hs
    refine ⟨_, exec_qDecode_question hq, fun _ v htc hqn hb => ⟨_, exec_qEncode v, ?_⟩⟩
    obtain ⟨h14, h507, -⟩ := hq.bounds
    obtain ⟨hname, -, hend⟩ := hq.dropResponse.qCommit_toNat
    have hn : v.nameLen = ck.1 + 1 - 12 := by rw [State.nameLen, hqn]; exact hname
    have hnbuf : v.bytes .nbuf 0 v.nameLen = s.bytes .ibuf 12 v.nameLen := by
      rw [hn]
      calc v.bytes .nbuf 0 (ck.1 + 1 - 12)
          = (qCommit s.dropResponse ck.1 ls.length).bytes .nbuf 0 (ck.1 + 1 - 12) :=
            bytes_congr fun k hk => by rw [Nat.zero_add]; exact hb k (by omega)
        _ = s.bytes .ibuf 12 (ck.1 + 1 - 12) := bytes_qCommit s.dropResponse ck.1 ls.length
    have hquestion : questionBytes v = s.bytes .ibuf 12 (v.nameLen + 4) :=
      questionBytes_of_qCommit (s := s.dropResponse) (k := ls.length) htc (by omega) hnbuf
    have hout : (qEncodeBody v.dropResponse).qOutLen.toNat = v.nameLen + 4 := qEncodeBody_qOutLen_toNat _
    have hspan : (qCommit s.dropResponse ck.1 ls.length).qEnd.toNat - 12 = v.nameLen + 4 := by omega
    rw [complete_qOutLen, complete_qEnd, hout, hspan]
    exact ⟨rfl, (bytes_qEncodeBody v.dropResponse).trans hquestion⟩

end Sys2Proof.Machine

/-! PROOFS. Command control: the engine's step, NOP, COMPOSE, CLEAR, and the host's accesses under BUSY. -/

namespace Sys2Proof.Machine

/-! ### The engine's step (42_control.md R190, R196) -/

/-- With BUSY = 1 the engine executes the command its latch decodes to. -/
theorem engineTurn_command {s : State} {i : Instr} (hb : s.status.busy = true) (hd : decode s.lastCmd = .ok i) :
    engineTurn s = exec i s := by
  rw [engineTurn, if_pos hb, fetch, hd]

/-- With BUSY = 1 a latched word that does not decode records ILLEGAL_COMMAND and nothing else. -/
theorem engineTurn_illegal {s : State} (hb : s.status.busy = true) (he : ∃ e, decode s.lastCmd = .error e) :
    engineTurn s = .next (FailedWith s 5 1 0) := by
  obtain ⟨e, he⟩ := he
  rw [engineTurn, if_pos hb, fetch, he]
  rfl

/-- Settles O6. -/
theorem stepExecutesTheLatchedCommand : Obligations.StepExecutesTheLatchedCommand :=
  fun _ _ hb hd => ⟨engineTurn_command hb hd, fun hs => (step_busy hs hb).trans (engineTurn_command hb hd)⟩

/-- Settles O7: the words named are those the decoder refuses. -/
theorem illegalWordCompletesWithCodeFive : Obligations.IllegalWordCompletesWithCodeFive := by
  intro s hb hw
  refine engineTurn_illegal hb ((decode_error_iff_fields s.lastCmd).2 ?_)
  rwa [ne_eq, rsvField_eq_zero_iff, toNat_opField]

/-! ### NOP, COMPOSE, CLEAR (42_control.md R192, R193, R195) -/

/-- Settles O18. -/
theorem nopOnlyCompletes : Obligations.NopOnlyCompletes := ⟨rfl, exec_nop⟩

/-- Settles O20. -/
theorem clearZeroesTheResults : Obligations.ClearZeroesTheResults := ⟨rfl, exec_clear⟩

/-- COMPOSE's OUT_LEN is a sum in the register's width. -/
theorem composeBody_outLen_eq_add (s : State) : (composeBody s).outLen = 12 + s.qOutLen := by
  rw [composeBody_outLen, BitVec.ofNat_add, BitVec.ofNat_toNat, BitVec.setWidth_eq]
  rfl

/-- With a Q_OUT_LEN in range the sum does not wrap. -/
theorem composeBody_outLen_toNat {s : State} (h : s.qOutLen.toNat ≤ 500) :
    (composeBody s).outLen.toNat = 12 + s.qOutLen.toNat :=
  Nat.mod_eq_of_lt (by omega)

/-- The response is the bytes of OBUF below OUT_LEN. -/
theorem responseBytes_eq_bytes (s : State) : s.responseBytes = s.bytes .obuf 0 s.outLen.toNat := by
  simp only [State.responseBytes, State.bytes, Nat.zero_add]

/-- The response COMPOSE marks: the header's twelve bytes, then the question's. -/
theorem responseBytes_composeBody {s : State} (h : s.qOutLen.toNat ≤ 500) :
    (composeBody s).responseBytes = s.bytes .obuf 0 12 ++ s.bytes .obuf 12 s.qOutLen.toNat := by
  rw [responseBytes_eq_bytes, composeBody_outLen_toNat h, bytes_add]
  rfl

/-- Settles O19. -/
theorem composeMarksTheResponse : Obligations.ComposeMarksTheResponse := by
  refine ⟨rfl, fun s => ⟨_, exec_compose s, ?record, fun h => ⟨?length, ?bound, ?bytes⟩⟩, _, rfl, rfl⟩
  case record => rw [← composeBody_outLen_eq_add]; rfl
  case length => exact composeBody_outLen_toNat h
  case bound => rw [complete_outLen, composeBody_outLen_toNat h]; omega
  case bytes => exact responseBytes_composeBody h

/-! ### Accesses while a command is latched (42_control.md R199; 20_memory.md R71) -/

/-- `s` with the host to make the accesses `l` next, and no turn scheduled after them. -/
def State.scheduled (s : State) (l : List Access) : State :=
  { s with env := { s.env with sched := l.map .access } }

/-- `s` after the accesses `l`, all made while a command is latched, with the trace they leave. -/
def State.afterLost (s : State) (l : List Access) (tr : List BusRecord) : State :=
  { s with
    status := { s.status with
      werr := s.status.werr || l.any Access.isWrite, berr := s.status.berr || l.any (fun a => !a.isLegal) }
    env := { s.env with sched := [], trace := tr } }

/-- One lost access before others. -/
theorem afterLost_singleton_afterLost (s : State) (a : Access) (l : List Access) (tr tr' : List BusRecord) :
    (s.afterLost [a] tr).afterLost l tr' = s.afterLost (a :: l) tr' := by
  simp [State.afterLost, Bool.or_assoc]

/-- The step of a scheduled access made while a command is latched. -/
theorem step_scheduled_busy {s : State} (hb : s.status.busy = true) (a : Access) (l : List Access) :
    ∃ tr, step (s.scheduled (a :: l)) = .next ((s.afterLost [a] tr).scheduled l) := by
  refine ⟨(s.env.saw a ((s.scheduled l).bus a).1).trace, (accessStep_eq (s.scheduled l) a).trans ?_⟩
  rw [perform_busy (s.scheduled l) a hb]
  simp [State.afterLost, State.scheduled, Env.saw]

/-- All of them lost, and the engine's turn after the last. -/
theorem run_scheduled_busy (l : List Access) : ∀ {s : State}, s.status.busy = true →
    ∃ tr, core.run l.length (s.scheduled l) = .next (s.afterLost l tr) ∧
      core.run (l.length + 1) (s.scheduled l) = engineTurn (s.afterLost l tr) := by
  induction l with
  | nil =>
    intro s hb
    have hs : s.scheduled [] = s.afterLost [] s.env.trace := by
      simp [State.scheduled, State.afterLost]
    refine ⟨s.env.trace, congrArg _ hs, ?_⟩
    rw [← hs]
    exact (core_run_one _).trans (step_busy rfl hb)
  | cons a l ih =>
    intro s hb
    obtain ⟨tr, hstep⟩ := step_scheduled_busy hb a l
    obtain ⟨tr', hrun, hnext⟩ := ih (s := s.afterLost [a] tr) hb
    rw [afterLost_singleton_afterLost] at hrun hnext
    exact ⟨tr', (core_run_next _ hstep).trans hrun, (core_run_next _ hstep).trans hnext⟩

/-- Settles O9, by induction on the accesses. -/
theorem accessesDuringBusyLeaveTheCommandItsInput : Obligations.AccessesDuringBusyLeaveTheCommandItsInput := by
  intro s l hb
  obtain ⟨tr, hrun, hnext⟩ := run_scheduled_busy l hb
  exact ⟨s.afterLost l tr, hrun, rfl, hnext⟩

end Sys2Proof.Machine

/-! PROOFS. The host bus: the words of the registers, the bytes of the window, and what a legal write stores. -/

namespace Sys2Proof.Machine

/-! ### The words of the registers (42_control.md R198) -/

theorem toNat_ctrl_toWord (c : Ctrl) :
    c.toWord.toNat = c.ie.toNat + 2 * c.hdrMode.toNat + 4 * c.lblMode.toNat + 8 * c.strict.toNat := by
  simp only [Ctrl.toWord, toNat_append, BitVec.toNat_ofBool, BitVec.toNat_ofNat]
  omega

theorem toNat_status_toWord (t : Status) :
    t.toWord.toNat = t.busy.toNat + 2 * t.done.toNat + 4 * t.respValid.toNat + 8 * t.werr.toNat
      + 16 * t.berr.toNat + 256 * t.err.toNat := by
  simp only [Status.toWord, toNat_append, BitVec.toNat_ofBool, BitVec.toNat_ofNat]
  omega

theorem toNat_errInfo_toWord (e : ErrInfo) : e.toWord.toNat = e.stage.toNat + 65536 * e.offset.toNat := by
  simp only [ErrInfo.toWord, toNat_append, BitVec.toNat_ofNat]
  omega

theorem toNat_qName_toWord (q : QName) : q.toWord.toNat = q.nameLen.toNat + 65536 * q.nLabels.toNat := by
  simp only [QName.toWord, toNat_append, BitVec.toNat_ofNat]
  omega

/-! ### The bytes of the window -/

/-- The byte of a buffer at a window address. -/
theorem buf_sub_base (s : State) {b : Buf} {a : Nat} (h : b.base ≤ a) : s.buf b (a - b.base) = s.byteAt a := by
  rw [State.buf, Nat.add_sub_cancel' h]

theorem setBuf_sub_base (s : State) {b : Buf} {a : Nat} (h : b.base ≤ a) (v : Byte) :
    s.setBuf b (a - b.base) v = s.putByte a v := by
  rw [State.setBuf, Nat.add_sub_cancel' h]

/-- A read of a buffer address returns its byte, zero-extended. -/
theorem readPlace_buffer (s : State) {a : WinAddr} (h : isBufAddr a.toNat = true) :
    s.readPlace (placeOf a) = (s.byteAt a.toNat).setWidth 32 := by
  rcases of_decide_eq_true h with ⟨h1, h2⟩ | ⟨h1, h2⟩ | ⟨h1, h2⟩
  · rw [placeOf_ibuf h1 h2, ← buf_sub_base s (b := .ibuf) h1]; rfl
  · rw [placeOf_nbuf h1 h2, ← buf_sub_base s (b := .nbuf) h1]; rfl
  · rw [placeOf_obuf h1 h2, ← buf_sub_base s (b := .obuf) h1]; rfl

/-- From 0x400 up the addresses that are no buffer's are reserved. -/
theorem placeOf_not_buffer {a : WinAddr} (h1 : 0x400 ≤ a.toNat) (h : isBufAddr a.toNat = false) :
    placeOf a = .reserved := by
  have := of_decide_eq_false h
  exact placeOf_reserved_buf (by omega)

/-- From 0x400 up an 8-bit read returns what stands there and changes nothing. -/
theorem accessStep_readByte (s : State) {a : WinAddr} (h : 0x400 ≤ a.toNat) :
    accessStep s (.read .w8 a) = .next { s with env := s.env.saw (.read .w8 a) (s.readPlace (placeOf a)) } := by
  rw [accessStep_eq, perform_read_legal s ((legalAccess_iff .w8 a).2 (.inr ⟨h, rfl⟩))]

/-- Settles O13: the words of the registers as sums of their fields, and the place of each address. -/
theorem legalReadReturnsTheCurrentValue : Obligations.LegalReadReturnsTheCurrentValue := by
  intro s
  have wide {n : Nat} (x : BitVec n) (h : n ≤ 32) : (x.setWidth 32).toNat = x.toNat := BitVec.toNat_setWidth_of_le h
  refine ⟨accessStep_readReg s, toNat_ctrl_toWord _, toNat_status_toWord _, rfl, toNat_errInfo_toWord _,
    wide _ (by decide), wide _ (by decide), rfl, rfl, wide _ (by decide), wide _ (by decide), rfl, rfl, rfl,
    toNat_qName_toWord _, wide _ (by decide), wide _ (by decide), fun a ha => ?buffer, fun a h1 ha => ?reserved⟩
  case buffer =>
    have h1 : 0x400 ≤ a.toNat := by have := of_decide_eq_true ha; omega
    exact ⟨_, wide (s.byteAt a.toNat) (by decide), by rw [accessStep_readByte s h1, readPlace_buffer s ha]⟩
  case reserved => rw [accessStep_readByte s h1, placeOf_not_buffer h1 ha]; rfl

/-! ### What a legal write stores (42_control.md R197, R200) -/

/-- The low bits of a word are its remainder. -/
theorem extractLsb'_zero_eq_ofNat (v : Word) {n m : Nat} (hm : 2 ^ n = m) :
    v.extractLsb' 0 n = BitVec.ofNat n (v.toNat % m) := by
  rw [← hm, ← BitVec.toNat_inj, BitVec.extractLsb'_toNat, Nat.shiftRight_zero, BitVec.toNat_ofNat, Nat.mod_mod]

/-- NAME_LEN takes a value in range. -/
theorem QName.write_of_le (q : QName) {v : Word} (h : v.toNat % 512 ≤ 496) :
    q.write v = { q with nameLen := BitVec.ofNat 9 (v.toNat % 512) } := by
  have hn : (v.extractLsb' 0 9).toNat ≤ 496 := by rwa [BitVec.extractLsb'_toNat, Nat.shiftRight_zero]
  rw [QName.write, if_pos hn, extractLsb'_zero_eq_ofNat v (m := 512) rfl]

/-- NAME_LEN ignores a value out of range. -/
theorem QName.write_of_gt (q : QName) {v : Word} (h : 496 < v.toNat % 512) : q.write v = q := by
  have hn : ¬ (v.extractLsb' 0 9).toNat ≤ 496 := by rw [BitVec.extractLsb'_toNat, Nat.shiftRight_zero]; omega
  rw [QName.write, if_neg hn]

/-- From 0x400 up an 8-bit write while BUSY = 0 is the place's write, recorded in the trace. -/
theorem accessStep_writeByte {s : State} (hb : s.status.busy = false) {a : WinAddr} (h : 0x400 ≤ a.toNat) (v : Word) :
    accessStep s (.write .w8 a v) =
      .next { s.writePlace v (placeOf a) with env := s.env.saw (.write .w8 a v) 0 } := by
  rw [accessStep_eq, perform_write_legal s v hb ((legalAccess_iff .w8 a).2 (.inr ⟨h, rfl⟩))]

/-- An IBUF or NBUF address takes bits 7:0 of the data (log 12). -/
theorem writePlace_inputBuffer (s : State) (v : Word) {a : WinAddr}
    (h : (0x400 ≤ a.toNat ∧ a.toNat < 0x600) ∨ (0x600 ≤ a.toNat ∧ a.toNat < 0x7F0)) :
    s.writePlace v (placeOf a) = s.putByte a.toNat (v.extractLsb' 0 8) := by
  rcases h with ⟨h1, h2⟩ | ⟨h1, h2⟩
  · rw [placeOf_ibuf h1 h2]
    exact setBuf_sub_base s (b := .ibuf) h1 _
  · rw [placeOf_nbuf h1 h2]
    exact setBuf_sub_base s (b := .nbuf) h1 _

/-- OBUF and the reserved addresses around it ignore a write (20_memory.md R65, R66). -/
theorem writePlace_ignored (s : State) (v : Word) {a : WinAddr} (h : 0x7F0 ≤ a.toNat) :
    s.writePlace v (placeOf a) = s := by
  by_cases ho : 0x800 ≤ a.toNat ∧ a.toNat < 0xA00
  · rw [placeOf_obuf ho.1 ho.2]; rfl
  · rw [placeOf_reserved_buf (by omega)]; rfl

/-- Settles O15: `writeReg` register by register, `writePlace` byte by byte, and O14 for the reserved offsets. -/
theorem legalWriteStoresTheWritableFields : Obligations.LegalWriteStoresTheWritableFields := by
  intro s v hb
  have reg := fun r => accessStep_writeReg hb r v
  refine ⟨reg .ctrl, reg .status, reg .cmd, reg .errInfo, ?inLen, reg .outLen, reg .polQdAn, reg .polNsAr, ?hId,
    ?hFlags, reg .hQdAn, reg .hNsAr, reg .qTypeClass, fun h => ?nameLen, fun h => ?nameLenKept, reg .qOutLen,
    reg .qEnd, fun a h4 hlo hhi => ?reserved, fun a ha => ?byte, fun a ha => ?ignored⟩
  case inLen => rw [← extractLsb'_zero_eq_ofNat v (n := 10) (m := 1024) rfl]; exact reg .inLen
  case hId => rw [← extractLsb'_zero_eq_ofNat v (n := 16) (m := 65536) rfl]; exact reg .hId
  case hFlags => rw [← extractLsb'_zero_eq_ofNat v (n := 16) (m := 65536) rfl]; exact reg .hFlags
  case nameLen => rw [← QName.write_of_le s.qName h]; exact reg .qName
  case nameLenKept =>
    have hw := reg .qName
    rw [State.writeReg, QName.write_of_gt s.qName h] at hw
    exact hw
  case reserved =>
    obtain ⟨-, hw⟩ := reservedAddressesReadZeroAndIgnoreWrites s a v .w32 (.inl ⟨rfl, h4, hlo, hhi⟩)
    rwa [hb, Bool.or_false] at hw
  case byte =>
    have h1 : 0x400 ≤ a.toNat := by omega
    refine ⟨_, by rw [accessStep_writeByte hb h1, writePlace_inputBuffer s v ha], rfl, ?stored, fun x hx => ?frame⟩
    case stored =>
      refine (congrArg BitVec.toNat (byteAt_putByte_same s a.toNat _)).trans ?_
      rw [BitVec.extractLsb'_toNat, Nat.shiftRight_zero]
    case frame => exact byteAt_putByte_other s a.toNat x _ (by omega)
  case ignored => rw [accessStep_writeByte hb (by omega), writePlace_ignored s v ha]

end Sys2Proof.Machine

/-! PROOFS. PROCESS as the five commands, the records and responses every command leaves, and the range of NAME_LEN. -/

namespace Sys2Proof.Machine

/-! ### PROCESS is the five commands (42_control.md R194; 60_exceptions.md R236) -/

/-- HDR_DECODE completes with what its body answers. -/
theorem exec_hdrDecode_ok {s t : State} (h : hdrDecodeBody s.dropResponse = .ok t) :
    exec .hdrDecode s = .next t.complete := by
  rw [exec_hdrDecode, h]; rfl

/-- Q_DECODE's body raises what its scan raises. -/
theorem qScan_of_qDecodeBody_error {s : State} {x : CmdError} (h : qDecodeBody s = .error x) :
    qScan s = .error x := by
  rcases qDecodeBody_cases s with ⟨y, hy, hs⟩ | ⟨ls, e, -, ho⟩
  · rw [hy] at h
    exact Except.error.inj h ▸ hs
  · rw [ho] at h; cases h

/-! A command run on a state with another record leaves what its body makes of the state, and a record of its
own. -/

section
variable (s : State) (o : BitVec 10) (e : ErrInfo) (st : Status)

theorem exec_hdrEncode_withRecord : exec .hdrEncode (s.withRecord o e st) =
    .next ((hdrEncodeBody s).withRecord 0 ⟨0, 0⟩ (st.completedNoResponse 0)) := rfl

theorem exec_qEncode_withRecord : exec .qEncode (s.withRecord o e st) =
    .next ((qEncodeBody s).withRecord 0 ⟨0, 0⟩ (st.completedNoResponse 0)) := rfl

theorem exec_compose_withRecord : exec .compose (s.withRecord o e st) =
    .next (s.withRecord (BitVec.ofNat 10 (12 + s.qOutLen.toNat)) ⟨0, 0⟩
      { st.completed 0 with respValid := true }) := rfl

theorem exec_qDecode_withRecord_error {x : CmdError} (h : qScan s = .error x) :
    exec .qDecode (s.withRecord o e st) =
      .next (s.withRecord 0 ⟨x.stage.code, BitVec.ofNat 10 x.offset⟩ (st.completedNoResponse x.kind.code)) :=
  exec_qDecode_error ((qScan_withRecord s o e st).trans h)

theorem exec_qDecode_withRecord_question {ls : List Nat} {c : Nat} (h : HasQuestion s ls c) :
    exec .qDecode (s.withRecord o e st) =
      .next ((qCommit s c ls.length).withRecord 0 ⟨0, 0⟩ (st.completedNoResponse 0)) := by
  have hq : HasQuestion (s.withRecord o e st) ls c :=
    HasQuestion.congr (s := s) (t := s.withRecord o e st) rfl rfl (fun _ _ => rfl) h
  exact exec_qDecode_question hq
end

/-- Settles O36: a command record between two stages changes nothing of what the later stage does. -/
theorem processIsTheFiveCommandsInOrder : Obligations.ProcessIsTheFiveCommandsInOrder := by
  refine ⟨rfl, fun s => ?_⟩
  rcases processStages_cases s.dropResponse with ⟨x, hx, hp⟩ | ⟨t, x, ht, hx, hp⟩ | ⟨t, u, ht, hu, hp⟩
  case inl =>
    exact ⟨_, _, _, _, _, _, (exec_process s).trans (congrArg _ hp), exec_hdrDecode_error hx, exec_hdrEncode _,
      exec_qDecode _, exec_qEncode _, exec_compose _, fun _ => rfl, fun h => absurd h (code_ne_zero x.kind),
      fun h => absurd h (code_ne_zero x.kind)⟩
  case inr.inl =>
    have hc := exec_qDecode_withRecord_error _ 0 ⟨0, 0⟩ ((t.status.completed 0).completedNoResponse 0)
      (qScan_of_qDecodeBody_error hx)
    exact ⟨_, _, _, _, _, _, (exec_process s).trans (congrArg _ hp), exec_hdrDecode_ok ht,
      exec_hdrEncode_withRecord t _ _ _, hc, exec_qEncode _, exec_compose _, fun h => absurd rfl h, fun _ _ => rfl,
      fun _ h => absurd h (code_ne_zero x.kind)⟩
  case inr.inr =>
    obtain ⟨ls, e, hq, rfl⟩ := qDecodeBody_ok hu
    have hc := exec_qDecode_withRecord_question _ 0 ⟨0, 0⟩ ((t.status.completed 0).completedNoResponse 0) hq
    refine ⟨_, _, _, _, _, _, (exec_process s).trans (congrArg _ hp), exec_hdrDecode_ok ht,
      exec_hdrEncode_withRecord t _ _ _, hc, exec_qEncode_withRecord _ _ _ _, exec_compose_withRecord _ _ _ _,
      fun h => absurd rfl h, fun _ h => absurd rfl h, fun _ _ => ?_⟩
    rw [complete_eq_withRecord, composeBody_eq_withRecord, qEncodeBody_status, qCommit_status, hdrEncodeBody_status]
    rfl

/-! ### PROCESS on a question (42_control.md R194; 40_header_codec.md R124; 41_question_codec.md R167) -/

/-- The header of the response: ID and flags as the mode keeps them, and the policy's counts. -/
theorem headerBytes_of_hdrDecodeBody {s t : State} (h : hdrDecodeBody s = .ok t) :
    headerBytes t = s.bytes .ibuf 0 2 ++
      (if s.scopeZero then [s.buf .ibuf 2 &&& 0x80, 0x00] else s.bytes .ibuf 2 2) ++
      wireBytes s.polQdcount ++ wireBytes s.polAncount ++ wireBytes s.polNscount ++ wireBytes s.polArcount := by
  obtain ⟨h1, h2, -⟩ := hdrDecodeBody_ok h
  have ht := Except.ok.inj ((hdrDecodeBody_succeeds h1 h2).symm.trans h)
  rw [← wireBytes_memRead2 s .ibuf 0]
  split at ht
  · have hqr : [s.buf .ibuf 2 &&& 0x80, 0x00] =
        [hi8 (scopeZeroFlags (s.buf .ibuf 2)), lo8 (scopeZeroFlags (s.buf .ibuf 2))] := by
      rw [scopeZeroFlags_eq, hi8_be16, lo8_be16]
    rw [← ht, if_pos ‹_›, hqr]
    rfl
  · rw [← ht, if_neg ‹_›, ← wireBytes_memRead2 s .ibuf 2]
    rfl

/-- The two stages after the header leave its twelve bytes. -/
theorem bytes_header_after_question {s : State} {ls : List Nat} {e : Nat} (hq : HasQuestion s ls e) :
    (qEncodeBody (qCommit s e ls.length)).bytes .obuf 0 12 = s.bytes .obuf 0 12 :=
  bytes_congr fun k hk => by
    rw [State.buf, byteAt_qEncodeBody_below _ (by simp only [Buf.base]; omega),
      byteAt_qCommit_outside hq (.inr (by simp only [Buf.base]; omega))]
    rfl

/-- The question's bytes after a commit are the datagram's from offset 12 to the end of CLASS. -/
theorem questionBytes_qCommit {s : State} {ls : List Nat} {e : Nat} (hq : HasQuestion s ls e) :
    questionBytes (qCommit s e ls.length) = s.bytes .ibuf 12 (e + 5 - 12) := by
  obtain ⟨h14, -⟩ := hq.bounds
  obtain ⟨hname, -⟩ := hq.qCommit_toNat
  rw [questionBytes_of_qCommit (s := s) (c := e) (k := ls.length) rfl (by omega)
    (by rw [hname]; exact bytes_qCommit s e ls.length), hname]
  congr 1
  omega

/-- HDR_DECODE writes no byte. -/
theorem buf_of_hdrDecodeBody {s t : State} (h : hdrDecodeBody s = .ok t) (b : Buf) (i : Nat) :
    t.buf b i = s.buf b i := by
  obtain ⟨-, -, _, _, _, _, _, _, rfl⟩ := hdrDecodeBody_ok h
  exact buf_setHeader s _ _ _ _ _ _ b i

/-- The stages of PROCESS where both decodes succeed. -/
theorem processStages_question {s t : State} {ls : List Nat} {e : Nat} (ht : hdrDecodeBody s = .ok t)
    (hq : HasQuestion (hdrEncodeBody t) ls e) :
    processStages s = (composeBody (qEncodeBody (qCommit (hdrEncodeBody t) e ls.length))).complete := by
  rw [processStages, ht]
  simp only [qDecodeBody_question hq]

/-- A question is still one after the header stage. -/
theorem HasQuestion.after_header {s t : State} {ls : List Nat} {e : Nat} (hq : HasQuestion s ls e)
    (ht : hdrDecodeBody s = .ok t) : ∃ ms, HasQuestion (hdrEncodeBody t) ms e := by
  have hscan : qScan (hdrEncodeBody t) = .ok (e, ls.length) :=
    (qScan_after_header ht).trans ((qScan_ok_iff s e ls.length).2 ⟨ls, hq, rfl⟩)
  obtain ⟨ms, hms, -⟩ := (qScan_ok_iff _ _ _).1 hscan
  exact ⟨ms, hms⟩

/-- Q_OUT_LEN after the stages of a question is the span from offset 12 to the end of CLASS. -/
theorem qOutLen_of_question {s : State} {ls : List Nat} {e : Nat} (hq : HasQuestion s ls e) :
    (qEncodeBody (qCommit s e ls.length)).qOutLen.toNat = e + 5 - 12 := by
  obtain ⟨h14, -⟩ := hq.bounds
  obtain ⟨hname, -⟩ := hq.qCommit_toNat
  rw [qEncodeBody_qOutLen_toNat, hname]
  omega

/-- The question's bytes in OBUF are the datagram's. -/
theorem bytes_question (s : State) {ls : List Nat} {e : Nat} (hq : HasQuestion s ls e) :
    (qEncodeBody (qCommit s e ls.length)).bytes .obuf 12 (e + 5 - 12) = s.bytes .ibuf 12 (e + 5 - 12) := by
  rw [← questionBytes_qCommit hq, ← bytes_qEncodeBody, ← qEncodeBody_qOutLen_toNat, qOutLen_of_question hq]

/-- Settles O37: the twelve header bytes stand under the question's stages, and COMPOSE appends the question. -/
theorem processAnswersAQuestion : Obligations.ProcessAnswersAQuestion := by
  intro s ls e hq
  obtain ⟨h14, h507, -, -, h13⟩ := hq.bounds
  have h12 : 12 ≤ s.len := by omega
  obtain ⟨t, ht⟩ : ∃ t, hdrDecodeBody s.dropResponse = .ok t :=
    ⟨_, hdrDecodeBody_succeeds (s := s.dropResponse) h12 hq.notOversize⟩
  obtain ⟨ms, hms⟩ := hq.dropResponse.after_header ht
  have hlen := qOutLen_of_question hms
  have hq500 : (qEncodeBody (qCommit (hdrEncodeBody t) e ms.length)).qOutLen.toNat ≤ 500 := by omega
  refine ⟨_, (exec_process s).trans (congrArg _ (processStages_question ht hms)), ?status, rfl, ?outLen, ?response⟩
  case status =>
    rw [complete_status, composeBody_status, qEncodeBody_status, qCommit_status, hdrEncodeBody_status,
      hdrDecodeBody_status ht]
    rfl
  case outLen => rw [complete_outLen, composeBody_outLen_toNat hq500, hlen]; omega
  case response =>
    have hibuf : (hdrEncodeBody t).bytes .ibuf 12 (e + 5 - 12) = s.bytes .ibuf 12 (e + 5 - 12) :=
      bytes_congr fun k hk => by
        rw [buf_ibuf_hdrEncodeBody _ _ (by omega), buf_of_hdrDecodeBody ht, buf_dropResponse]
    refine (responseBytes_composeBody hq500).trans ?_
    rw [hlen, bytes_header_after_question hms, bytes_hdrEncodeBody, headerBytes_of_hdrDecodeBody ht,
      bytes_question _ hms, hibuf]
    rfl

/-! ### The record a command leaves (60_exceptions.md R231 to R234) -/

/-- The record of `t` is one of the table of 60_exceptions.md R232, with LEN `n`. -/
def RecordInTable (n : BitVec 10) (t : State) : Prop :=
  (t.status.err = 0 ∧ t.errInfo = ⟨0, 0⟩) ∨
  (t.status.err = 1 ∧ t.errInfo = ⟨2, n⟩) ∨
  (t.status.err = 1 ∧ t.errInfo = ⟨3, n⟩) ∨
  (t.status.err = 2 ∧ t.errInfo = ⟨3, 12⟩) ∨
  (t.status.err = 3 ∧ t.errInfo.stage = 3 ∧ 12 ≤ t.errInfo.offset.toNat ∧ t.errInfo.offset.toNat ≤ n.toNat) ∨
  (t.status.err = 4 ∧ t.errInfo = ⟨1, 0⟩)

theorem recordInTable_complete (n : BitVec 10) (t : State) : RecordInTable n t.complete := .inl ⟨rfl, rfl⟩

/-- LEN as an offset is IN_LEN. -/
theorem ofNat_len (s : State) : BitVec.ofNat 10 s.len = s.inLen := by
  rw [State.len, BitVec.ofNat_toNat, BitVec.setWidth_eq]

/-- An error of HDR_DECODE, on whatever state it is recorded. -/
theorem recordInTable_of_hdrDecodeBody {s : State} {x : CmdError} (h : hdrDecodeBody s = .error x) (t : State) :
    RecordInTable s.inLen (t.fail x) := by
  rcases hdrDecodeBody_cases s with ⟨y, hy, hc⟩ | ⟨-, -, ho⟩
  · rw [hy] at h
    obtain rfl := Except.error.inj h
    rcases hc with ⟨-, rfl⟩ | ⟨-, rfl⟩
    · exact .inr (.inr (.inr (.inr (.inr ⟨rfl, rfl⟩))))
    · exact .inr (.inl ⟨rfl, congrArg _ (ofNat_len s)⟩)
  · rw [ho] at h; cases h

/-- An error of Q_DECODE, on whatever state it is recorded. -/
theorem recordInTable_of_qScan {s : State} {x : CmdError} (h : qScan s = .error x) (t : State) :
    RecordInTable s.inLen (t.fail x) := by
  rcases qScan_error h with ⟨-, rfl⟩ | ⟨-, rfl⟩ | ⟨-, -, -, rfl⟩ | ⟨-, h2, d, h12, hd, rfl⟩
  · exact .inr (.inr (.inr (.inr (.inr ⟨rfl, rfl⟩))))
  · exact .inr (.inr (.inl ⟨rfl, congrArg _ (ofNat_len s)⟩))
  · exact .inr (.inr (.inr (.inl ⟨rfl, rfl⟩)))
  · have hlt : d < 1024 := by omega
    have hoff : (t.fail (.malformed d)).errInfo.offset.toNat = d := Nat.mod_eq_of_lt hlt
    exact .inr (.inr (.inr (.inr (.inl ⟨rfl, rfl, h12.trans hoff.ge, hoff.trans_le hd⟩))))

/-- The record of every command. -/
theorem exec_recordInTable (i : Instr) (s : State) : ∃ t, exec i s = .next t ∧ RecordInTable s.inLen t := by
  have finish {r : Except CmdError State} (h : ∀ x, r = .error x → ∀ t : State, RecordInTable s.inLen (t.fail x)) :
      RecordInTable s.inLen (s.dropResponse.finish r) := by
    cases r with
    | error x => exact h x rfl _
    | ok t => exact recordInTable_complete _ t
  cases i
  case nop => exact ⟨_, exec_nop s, recordInTable_complete _ _⟩
  case hdrDecode =>
    exact ⟨_, exec_hdrDecode s, finish fun _ => recordInTable_of_hdrDecodeBody (s := s.dropResponse)⟩
  case hdrEncode => exact ⟨_, exec_hdrEncode s, recordInTable_complete _ _⟩
  case qDecode =>
    exact ⟨_, exec_qDecode s, finish fun _ h =>
      recordInTable_of_qScan (s := s.dropResponse) (qScan_of_qDecodeBody_error h)⟩
  case qEncode => exact ⟨_, exec_qEncode s, recordInTable_complete _ _⟩
  case compose => exact ⟨_, exec_compose s, recordInTable_complete _ _⟩
  case process =>
    refine ⟨_, exec_process s, ?_⟩
    rcases processStages_cases s.dropResponse with ⟨x, hx, hp⟩ | ⟨t, x, ht, hx, hp⟩ | ⟨t, u, -, -, hp⟩ <;> rw [hp]
    · exact recordInTable_of_hdrDecodeBody hx _
    · exact recordInTable_of_qScan ((qScan_after_header ht).symm.trans (qScan_of_qDecodeBody_error hx)) _
    · exact recordInTable_complete _ _
  case clear => exact ⟨_, exec_clear s, recordInTable_complete _ _⟩

/-- Settles O40: a completion with the inputs kept, and a record of the table. -/
theorem everyCommandCompletes : Obligations.EveryCommandCompletes := by
  intro i s
  obtain ⟨t, ht, hbusy, hdone, hkeep⟩ := exec_completes i s
  obtain ⟨u, hu, hrecord⟩ := exec_recordInTable i s
  obtain rfl := Host.Outcome.next.inj (ht.symm.trans hu)
  exact ⟨t, ht, hbusy, hdone, hkeep.werr, hkeep.berr, hrecord⟩

/-! ### The response a command leaves (42_control.md R201) -/

/-- No response stands: RESP_VALID and OUT_LEN are 0. -/
def State.NoResponse (s : State) : Prop := s.status.respValid = false ∧ s.outLen = 0

theorem State.NoResponse.complete {s : State} (h : s.NoResponse) : s.complete.NoResponse := h

theorem noResponse_of_hdrDecodeBody {s t : State} (h : s.NoResponse) (ht : hdrDecodeBody s = .ok t) : t.NoResponse := by
  obtain ⟨-, -, _, _, _, _, _, _, rfl⟩ := hdrDecodeBody_ok ht
  exact h

theorem noResponse_of_qDecodeBody {s t : State} (h : s.NoResponse) (ht : qDecodeBody s = .ok t) : t.NoResponse := by
  obtain ⟨ls, e, -, rfl⟩ := qDecodeBody_ok ht
  exact h

/-- Every command but NOP, COMPOSE and PROCESS leaves no response. -/
theorem exec_noResponse {i : Instr} (hn : i ≠ .nop) (hc : i ≠ .compose) (hp : i ≠ .process) (s : State) :
    ∃ t, exec i s = .next t ∧ t.NoResponse := by
  have dropped : s.dropResponse.NoResponse := ⟨rfl, rfl⟩
  cases i
  case nop => exact absurd rfl hn
  case hdrDecode =>
    refine ⟨_, exec_hdrDecode s, ?_⟩
    cases h : hdrDecodeBody s.dropResponse with
    | error x => exact dropped
    | ok t => exact (noResponse_of_hdrDecodeBody dropped h).complete
  case hdrEncode => exact ⟨_, exec_hdrEncode s, dropped⟩
  case qDecode =>
    refine ⟨_, exec_qDecode s, ?_⟩
    cases h : qDecodeBody s.dropResponse with
    | error x => exact dropped
    | ok t => exact (noResponse_of_qDecodeBody dropped h).complete
  case qEncode => exact ⟨_, exec_qEncode s, dropped⟩
  case compose => exact absurd rfl hc
  case process => exact absurd rfl hp
  case clear => exact ⟨_, exec_clear s, dropped⟩

/-- PROCESS marks a response exactly when it records no error. -/
theorem exec_process_response (s : State) : ∃ t, exec .process s = .next t ∧
    (t.status.err = 0 → t.status.respValid = true ∧ t.outLen = 12 + t.qOutLen) ∧ (t.status.err ≠ 0 → t.NoResponse) := by
  refine ⟨_, exec_process s, ?_⟩
  rcases processStages_cases s.dropResponse with ⟨x, -, hp⟩ | ⟨t, x, -, -, hp⟩ | ⟨t, u, -, -, hp⟩ <;> rw [hp]
  · exact ⟨fun h => absurd h (code_ne_zero x.kind), fun _ => ⟨rfl, rfl⟩⟩
  · exact ⟨fun h => absurd h (code_ne_zero x.kind), fun _ => ⟨rfl, rfl⟩⟩
  · exact ⟨fun _ => ⟨rfl, composeBody_outLen_eq_add _⟩, fun h => absurd rfl h⟩

/-- A command that records an error leaves no response. -/
theorem exec_error_noResponse (i : Instr) (s : State) : ∃ t, exec i s = .next t ∧ (t.status.err ≠ 0 → t.NoResponse) := by
  by_cases hp : i = .process
  · obtain ⟨t, ht, -, he⟩ := exec_process_response s
    exact ⟨t, hp ▸ ht, he⟩
  by_cases hn : i = .nop
  · exact ⟨_, hn ▸ exec_nop s, fun h => absurd rfl h⟩
  by_cases hc : i = .compose
  · exact ⟨_, hc ▸ exec_compose s, fun h => absurd rfl h⟩
  · obtain ⟨t, ht, h⟩ := exec_noResponse hn hc hp s
    exact ⟨t, ht, fun _ => h⟩

/-- Settles O41. -/
theorem responseLifecycle : Obligations.ResponseLifecycle := by
  refine ⟨fun i s hn hc hp => exec_noResponse hn hc hp s, fun s => ⟨_, exec_nop s, rfl, rfl⟩,
    fun s => ⟨_, exec_compose s, rfl, composeBody_outLen_eq_add s⟩, exec_process_response, exec_error_noResponse,
    fun s hb he => ⟨_, engineTurn_illegal hb he, rfl, rfl⟩, fun s => ⟨_, rstStep_eq s, rfl, rfl⟩,
    fun s a => ⟨_, accessStep_eq s a, perform_response s a⟩⟩

/-! ### What every step keeps -/

section
variable {P : State → Prop}

/-- What every command but PROCESS keeps, PROCESS keeps: it ends as one of them (42_control.md R194). -/
theorem exec_keeps (h : ∀ (i : Instr) (s t : State), i ≠ .process → P s → exec i s = .next t → P t) (i : Instr)
    {s t : State} (hs : P s) (ht : exec i s = .next t) : P t := by
  by_cases hi : i = .process
  · subst hi
    obtain ⟨p, a, b, c, d, f, hp, ha, hb, hc, hd, hf, header, question, response⟩ :=
      processIsTheFiveCommandsInOrder.2 s
    obtain rfl := Host.Outcome.next.inj (hp.symm.trans ht)
    have pa := h .hdrDecode s a nofun hs ha
    have pc := h .qDecode b c nofun (h .hdrEncode a b nofun pa hb) hc
    have pf := h .compose d f nofun (h .qEncode c d nofun pc hd) hf
    by_cases ea : a.status.err = 0
    · by_cases ec : c.status.err = 0
      · exact response ea ec ▸ pf
      · exact question ea ec ▸ pc
    · exact header ea ▸ pa
  · exact h i s t hi hs ht

variable (henv : ∀ (s : State) (e : Env), P s → P { s with env := e })
include henv

/-- Taking a turn off the schedule keeps what does not speak of the host. -/
theorem takeTurn_keeps {s : State} (hs : P s) : P (takeTurn s).2 := takeTurn_state s ▸ henv _ _ hs

variable (haccess : ∀ (s : State) (a : Access), P s → P (s.perform a))
include haccess

/-- What every access keeps, and what does not speak of the host, an operation of the host's program keeps. -/
theorem hostLine_keeps {s t : State} {n : Nat} {op : HostOp} (hs : P s) (ht : hostLine s n op = .next t) : P t := by
  cases op with
  | bnz f l =>
    rw [hostLine] at ht
    split at ht
    · exact Host.Outcome.next.inj ht ▸ henv _ _ hs
    · split at ht
      · exact Host.Outcome.next.inj ht ▸ henv _ _ hs
      · cases ht
  | fetch => exact Host.Outcome.next.inj ht ▸ henv _ _ (henv _ _ (haccess s (accessRd .outLen) hs))
  | _ => exact Host.Outcome.next.inj ht ▸ henv _ _ (haccess _ _ hs)

theorem hostTurn_keeps {s t : State} (hs : P s) (ht : hostTurn s = .next t) : P t := by
  rw [hostTurn] at ht
  split at ht
  · exact Host.Outcome.next.inj ht ▸ haccess _ _ (henv _ _ hs)
  · split at ht
    · exact hostLine_keeps henv haccess hs ht
    · exact Host.Outcome.next.inj ht ▸ hs

variable (hexec : ∀ (i : Instr) (s t : State), P s → exec i s = .next t → P t)
  (hillegal : ∀ s : State, P s → P (FailedWith s 5 1 0)) (hrst : ∀ s : State, P s.rst)
include hexec hillegal hrst

/-- What commands, accesses and `rst` keep, every turn keeps. -/
theorem turnStep_keeps {s t : State} {u : Turn} (hs : P s) (ht : turnStep u s = .next t) : P t := by
  cases u with
  | engine =>
    cases hb : s.status.busy
    · rw [turnStep, engineTurn, hb] at ht
      exact Host.Outcome.next.inj ht ▸ hs
    · cases hd : decode s.lastCmd with
      | ok i => exact hexec i s t hs ((engineTurn_command hb hd).symm.trans ht)
      | error e => exact Host.Outcome.next.inj ((engineTurn_illegal hb ⟨e, hd⟩).symm.trans ht) ▸ hillegal s hs
  | access a => exact Host.Outcome.next.inj ht ▸ haccess s a hs
  | hostOp => exact hostTurn_keeps henv haccess hs ht
  | rst => exact Host.Outcome.next.inj ht ▸ hrst s

/-- So does every step. -/
theorem step_keeps {s t : State} (hs : P s) (ht : step s = .next t) : P t :=
  turnStep_keeps henv haccess hexec hillegal hrst (takeTurn_keeps henv hs) ht
end

/-! ### NAME_LEN (42_control.md R200) -/

/-- A write of Q_NAME keeps NAME_LEN in its range. -/
theorem QName.write_nameLen_le {q : QName} (h : q.nameLen.toNat ≤ 496) (v : Word) :
    (q.write v).nameLen.toNat ≤ 496 := by
  by_cases hv : v.toNat % 512 ≤ 496
  · rw [QName.write_of_le q hv, BitVec.toNat_ofNat]
    omega
  · rwa [QName.write_of_gt q (by omega)]

/-- A write of Q_NAME leaves NLABELS. -/
theorem QName.write_nLabels (q : QName) (v : Word) : (q.write v).nLabels = q.nLabels := by
  by_cases hv : v.toNat % 512 ≤ 496
  · rw [QName.write_of_le q hv]
  · rw [QName.write_of_gt q (by omega)]

/-- Every access keeps NAME_LEN in its range. -/
theorem perform_nameLen_le {s : State} (a : Access) (h : s.nameLen ≤ 496) : (s.perform a).nameLen ≤ 496 := by
  rcases a with ⟨w, a⟩ | ⟨w, a, v⟩
  · cases hl : legalAccess w a
    · rwa [perform_read_refused s hl]
    · rwa [perform_read_legal s hl]
  · cases hb : s.status.busy
    · cases hl : legalAccess w a
      · rwa [perform_write_refused s v hb hl]
      · rw [perform_write_legal s v hb hl]
        rcases placeOf a with r | ⟨b, i⟩ | _
        · cases r
          case qName => exact QName.write_nameLen_le h v
          all_goals exact h
        · cases b <;> exact h
        · exact h
    · rwa [perform_write_busy s v hb]

/-- A commit of Q_DECODE takes a NAME_LEN in range, CLEAR takes 0, and no other command writes it. -/
theorem Writes.nameLen_le {i : Instr} {s b : State} (w : Writes i s b) (h : s.nameLen ≤ 496) : b.nameLen ≤ 496 := by
  cases w with
  | question hq =>
    obtain ⟨-, h507, -⟩ := hq.bounds
    obtain ⟨hname, -⟩ := hq.qCommit_toNat
    omega
  | cleared => exact Nat.zero_le _
  | nothing | header | headerBytes | questionBytes => exact h

/-- Every command keeps NAME_LEN in its range. -/
theorem exec_nameLen_le (i : Instr) {s t : State} (h : s.nameLen ≤ 496) (ht : exec i s = .next t) :
    t.nameLen ≤ 496 := by
  refine exec_keeps (P := fun s => s.nameLen ≤ 496) (fun i s t hi h ht => ?_) i h ht
  obtain ⟨b, o, e, st, hb, hw⟩ := exec_writes hi s
  exact Host.Outcome.next.inj (hb.symm.trans ht) ▸ hw.nameLen_le h

/-- Every step keeps NAME_LEN in its range. -/
theorem step_nameLen_le {s t : State} (h : s.nameLen ≤ 496) (ht : step s = .next t) : t.nameLen ≤ 496 :=
  step_keeps (P := fun s => s.nameLen ≤ 496) (fun _ _ h => h) (fun _ => perform_nameLen_le)
    (fun i _ _ => exec_nameLen_le i) (fun _ h => h) (fun _ => Nat.zero_le _) h ht

/-- Settles O16: the WARL write, the range under every kind of turn, and the frame of O34 with 500 bytes from
OBUF[12]. -/
theorem nameLenIsWarl : Obligations.NameLenIsWarl := by
  refine ⟨fun s v hb => ⟨_, accessStep_writeReg hb .qName v, fun hv => ?taken, fun hv => ?ignored,
      QName.write_nLabels s.qName v⟩,
    Nat.zero_le _, fun _ _ => step_nameLen_le, fun s h => ?encode⟩
  case taken =>
    have hw : (s.qName.write v).nameLen.toNat = v.toNat % 512 := by
      rw [QName.write_of_le s.qName hv, BitVec.toNat_ofNat, Nat.mod_mod]
    exact hw
  case ignored => exact congrArg QName.nameLen (QName.write_of_gt s.qName hv)
  case encode =>
    obtain ⟨t, ht, -, -, -, hframe⟩ := qEncodeWritesNameTypeClass.2 s
    have hn : s.nameLen ≤ 496 := h
    exact ⟨t, ht, fun a ha => hframe a (by omega)⟩

end Sys2Proof.Machine

/-! PROOFS. Errors and stops: what a failing stage leaves, the one stop of a step, the idle block, and the instances of a platform. -/

namespace Sys2Proof.Machine

/-! ### PROCESS that fails (42_control.md R194; 60_exceptions.md R235, R236) -/

/-- A failing header stage records its error and nothing else. -/
theorem exec_process_header_error {s : State} {x : CmdError} (h : hdrDecodeBody s.dropResponse = .error x) :
    exec .process s = .next (FailedWith s x.kind.code x.stage.code x.offset) := by
  rw [exec_process, processStages, h]; rfl

/-- Where the header stage succeeds and the scan raises, PROCESS leaves the header encoded and the scan's error. -/
theorem processStages_qScan_error {s t : State} {x : CmdError} (ht : hdrDecodeBody s = .ok t) (hx : qScan s = .error x) :
    processStages s = (hdrEncodeBody t).fail x := by
  have hq : qDecodeBody (hdrEncodeBody t) = .error x := qDecodeBody_error ((qScan_after_header ht).trans hx)
  rw [processStages, ht]
  simp only [hq]

/-- A failing question stage records its error on what HDR_DECODE leaves, with the header's twelve bytes
encoded and no other byte written. -/
theorem exec_process_question_error {s : State} {x : CmdError} (h1 : 12 ≤ s.len) (h2 : s.len ≤ 512)
    (hx : qScan s = .error x) :
    ∃ t h, exec .process s = .next t ∧ exec .hdrDecode s = .next h ∧
      t = { FailedWith h x.kind.code x.stage.code x.offset with mem := t.mem } ∧
      t.bytes .obuf 0 2 = s.bytes .ibuf 0 2 ∧
      t.bytes .obuf 0 12 = wireBytes h.hId ++ wireBytes h.hFlags ++ wireBytes s.polQdcount
        ++ wireBytes s.polAncount ++ wireBytes s.polNscount ++ wireBytes s.polArcount ∧
      SameBytesOutside s t 0x800 12 := by
  obtain ⟨u, hu⟩ : ∃ u, hdrDecodeBody s.dropResponse = .ok u :=
    ⟨_, hdrDecodeBody_succeeds (s := s.dropResponse) h1 h2⟩
  have hp : exec .process s = .next ((hdrEncodeBody u).fail x) :=
    (exec_process s).trans (congrArg _ (processStages_qScan_error hu ((qScan_dropResponse s).trans hx)))
  have hid : u.hId = s.memRead2 .ibuf 0 := by
    obtain ⟨h, hh, -, -, -, hid, -⟩ := exec_hdrDecode_header h1 h2
    obtain rfl := Host.Outcome.next.inj ((exec_hdrDecode_ok hu).symm.trans hh)
    exact hid
  refine ⟨_, _, hp, exec_hdrDecode_ok hu, rfl, ?id, ?header, ?frame⟩
  case id =>
    obtain ⟨hbytes, -⟩ := hdrEncodeBody_fields u
    exact hbytes.trans (by rw [hid, wireBytes_memRead2])
  case header =>
    obtain ⟨-, -, _, _, _, _, _, _, rfl⟩ := hdrDecodeBody_ok hu
    exact bytes_hdrEncodeBody _
  case frame =>
    obtain ⟨-, -, _, _, _, _, _, _, rfl⟩ := hdrDecodeBody_ok hu
    exact sameBytesOutside_putBytes (b := .obuf) (i := 0) (fun _ => rfl) rfl (headerBytes_length _)

/-- Settles O38: the header stage's checks come first, and the question's scan raises on what that stage left. -/
theorem processReportsTheFirstFailingStage : Obligations.ProcessReportsTheFirstFailingStage := by
  refine fun s => ⟨fun h => ?oversize, fun h => ?truncated, fun h => ?noQuestion, fun h h0 => ?emptyDomain⟩
  case oversize => exact exec_process_header_error (hdrDecodeBody_oversize (s := s.dropResponse) h)
  case truncated => exact exec_process_header_error (hdrDecodeBody_truncated (s := s.dropResponse) h)
  case noQuestion =>
    have hx : qScan s = .error (.truncated .question 12) := h ▸ qScan_truncated (s := s) (by omega)
    exact exec_process_question_error (by omega) (by omega) hx
  case emptyDomain =>
    have hx : qScan s = .error .emptyDomain :=
      qScan_emptyDomain (by omega) (by omega) (congrArg BitVec.toNat h0)
    exact exec_process_question_error (by omega) (by omega) hx

/-! ### A decode that fails (60_exceptions.md R236, R241) -/

/-- Settles O42: either decode ends as `FailedWith` says, or with ERR = 0. -/
theorem aFailingDecodeWritesNoResult : Obligations.AFailingDecodeWritesNoResult := by
  rintro i s (rfl | rfl)
  case inl =>
    cases h : hdrDecodeBody s.dropResponse with
    | error x => exact ⟨_, exec_hdrDecode_error h, fun _ => rfl⟩
    | ok t => exact ⟨_, exec_hdrDecode_ok h, fun he => absurd rfl he⟩
  case inr =>
    cases h : qScan s with
    | error x => exact ⟨_, exec_qDecode_error h, fun _ => rfl⟩
    | ok ck =>
      obtain ⟨ls, hq, -⟩ := (qScan_ok_iff s ck.1 ck.2).1 h
      exact ⟨_, exec_qDecode_question hq, fun he => absurd rfl he⟩

/-! ### How a step can end (60_exceptions.md R237; log 9) -/

/-- Every way a step can end: with the same program, or at a branch of it to a label it does not declare. -/
theorem step_cases (s : State) :
    (∃ t, step s = .next t ∧ t.env.program = s.env.program) ∨
    (step s = .fault .undefinedLabel ∧
      ∃ ln f l, ln ∈ s.env.program ∧ ln.op = .bnz f l ∧ findLabel s.env.program l 0 = none) := by
  have hp : (takeTurn s).2.env.program = s.env.program := by rw [takeTurn_state]
  rw [← hp]
  exact turnStep_cases (takeTurn s).1 (takeTurn s).2

/-- The labels a well-formed program branches to are found in it. -/
theorem findLabel_of_programWf {p : List Line} {ln : Line} {f : RegField} {l : Label} (hw : programWf p = true)
    (hln : ln ∈ p) (hop : ln.op = .bnz f l) : ∃ k, findLabel p l 0 = some k := by
  obtain ⟨hops, -⟩ := Bool.and_eq_true_iff.1 hw
  have hbnz : HostOp.wf p (.bnz f l) = true := hop ▸ List.all_eq_true.1 hops ln hln
  obtain ⟨-, hl⟩ := Bool.and_eq_true_iff.1 hbnz
  exact findLabel_isSome (List.contains_iff_mem.1 hl) 0

/-- Settles O11. -/
theorem stepGoesOnWithAWellFormedProgram : Obligations.StepGoesOnWithAWellFormedProgram := by
  intro s
  rcases step_cases s with ⟨t, ht, hp⟩ | ⟨hfault, ln, f, l, hln, hop, hnone⟩
  · exact ⟨fun _ => ⟨t, ht, hp⟩, .inl ⟨t, ht⟩⟩
  · refine ⟨fun hw => ?_, .inr hfault⟩
    obtain ⟨k, hk⟩ := findLabel_of_programWf hw hln hop
    rw [hnone] at hk
    cases hk

/-! ### The idle block (60_exceptions.md R249) -/

/-- With BUSY = 0 the engine has no step to take. -/
theorem engineTurn_idle {s : State} (hb : s.status.busy = false) : engineTurn s = .next s := by
  rw [engineTurn, hb]
  rfl

/-- With no schedule, no command latched and no work for the host, the turn is the engine's. -/
theorem step_idle {s : State} (hb : s.status.busy = false) (hs : s.env.sched = []) (hw : s.hostHasWork = false) :
    step s = engineTurn s := by
  simp [step, takeTurn, hs, hb, hw, turnStep]

/-- Settles O10. -/
theorem idleBlockKeepsItsState : Obligations.IdleBlockKeepsItsState := fun s hb hs hw =>
  ⟨(step_idle hb hs hw).trans (engineTurn_idle hb), (engineStep_eq s).trans (engineTurn_idle hb)⟩

/-! ### Several instances (60_exceptions.md R247) -/

/-- A step that goes on replaces the state of block `k`, and the list is otherwise as it was. -/
theorem stepAt_next {ps : Platform} {k : Nat} {p : Placed} {t : State} (hp : ps[k]? = some p)
    (ht : step p.block = .next t) : Platform.stepAt ps k = .next (ps.set k { p with block := t }) := by
  rw [Platform.stepAt, hp]
  simp only [ht]

/-- Settles O51. -/
theorem instancesShareNoState : Obligations.InstancesShareNoState := by
  intro ps k p t hp ht
  obtain ⟨hk, -⟩ := List.getElem?_eq_some_iff.1 hp
  exact ⟨_, stepAt_next hp ht, List.getElem?_set_self hk, fun j hj => List.getElem?_set_ne hj.symm⟩

end Sys2Proof.Machine

/-! PROOFS. Reset and hazards: the registers `rst` leaves, and that PROCESS carries nothing over from an earlier datagram. -/

namespace Sys2Proof.Machine

/-! ### PROCESS carries nothing over (70_reset_and_hazards.md R275) -/

/-- What the checks of PROCESS answer, in their order: the first error of the header's or the question's, or the
question's terminator and label count (42_control.md R194). -/
def processScan (s : State) : Except CmdError (Nat × Nat) :=
  match hdrCheck s.len with
  | some x => .error x
  | none => qScan s

/-- The checks depend on IN_LEN, CTRL and the IBUF bytes below LEN only. -/
theorem processScan_congr {s t : State} (hlen : t.inLen = s.inLen) (hctrl : t.ctrl = s.ctrl)
    (hb : ∀ i, i < s.len → i < 512 → t.buf .ibuf i = s.buf .ibuf i) : processScan t = processScan s := by
  have hl : t.len = s.len := congrArg BitVec.toNat hlen
  rw [processScan, processScan, hl, qScan_congr hlen hctrl hb]

/-- PROCESS ends by taking the error its checks answer, on whatever the stages before it left. -/
theorem exec_process_of_processScan_error {s : State} {x : CmdError} (h : processScan s = .error x) :
    ∃ u : State, exec .process s = .next (u.fail x) := by
  rw [processScan] at h
  split at h
  case h_1 y hy =>
    have hd : hdrDecodeBody s.dropResponse = .error x := by
      rw [hdrDecodeBody, len_dropResponse, hy, Except.error.inj h]
    exact ⟨s.dropResponse, exec_process_header_error hd⟩
  case h_2 hy =>
    obtain ⟨h12, h512⟩ := (hdrCheck_none_iff _).1 hy
    have hd := hdrDecodeBody_succeeds (s := s.dropResponse) h12 h512
    exact ⟨_, (exec_process s).trans (congrArg _ (processStages_qScan_error hd ((qScan_dropResponse s).trans h)))⟩

/-- Where no check fails the datagram holds a question. -/
theorem hasQuestion_of_processScan {s : State} {e k : Nat} (h : processScan s = .ok (e, k)) :
    ∃ ls, HasQuestion s ls e := by
  rw [processScan] at h
  split at h
  case h_1 => cases h
  case h_2 =>
    obtain ⟨ls, hq, -⟩ := (qScan_ok_iff s e k).1 h
    exact ⟨ls, hq⟩

/-- Settles O39: the checks answer alike; an error leaves the same record on any state, and the response to a
question is written from the policy, the header mode and the datagram's bytes alone (O37). -/
theorem processCarriesNothingOver : Obligations.ProcessCarriesNothingOver := by
  intro s s' hctrl hqdan hnsar hlen hb
  have hscan : processScan s' = processScan s := processScan_congr hlen hctrl hb
  cases hs : processScan s with
  | error x =>
    obtain ⟨u, hu⟩ := exec_process_of_processScan_error hs
    obtain ⟨u', hu'⟩ := exec_process_of_processScan_error (hscan.trans hs)
    exact ⟨_, _, hu, hu', rfl, rfl, rfl, rfl, rfl⟩
  | ok ek =>
    obtain ⟨ls, hq⟩ := hasQuestion_of_processScan hs
    obtain ⟨ls', hq'⟩ := hasQuestion_of_processScan (hscan.trans hs)
    obtain ⟨t, ht, hstatus, herr, hout, hresp⟩ := processAnswersAQuestion s ls ek.1 hq
    obtain ⟨t', ht', hstatus', herr', hout', hresp'⟩ := processAnswersAQuestion s' ls' ek.1 hq'
    refine ⟨t, t', ht, ht', by rw [hstatus, hstatus']; rfl, herr'.trans herr.symm, by rw [hstatus, hstatus'],
      BitVec.eq_of_toNat_eq (hout'.trans hout.symm), ?response⟩
    obtain ⟨h14, -⟩ := hq.bounds
    have h512 := hq.notOversize
    have hend := hq.typeClass
    have hbytes {i n : Nat} (h : i + n ≤ ek.1 + 5) : s'.bytes .ibuf i n = s.bytes .ibuf i n :=
      bytes_congr fun k hk => hb _ (by omega) (by omega)
    have hmode : s'.scopeZero = s.scopeZero := congrArg Ctrl.hdrMode hctrl
    rw [hresp, hresp', hbytes (by omega), hbytes (by omega), hbytes (by omega), hb 2 (by omega) (by omega), hmode]
    simp only [State.polQdcount, State.polAncount, State.polNscount, State.polArcount, hqdan, hnsar]

/-! ### The reset values (70_reset_and_hazards.md R270, R271) -/

/-- Settles O1. -/
theorem resetRegistersHoldTheirValues : Obligations.ResetRegistersHoldTheirValues :=
  ⟨fun r => by cases r <;> rfl, rfl, rfl, rfl⟩

/-- Blocks with the same registers read the same over the bus. -/
theorem SameRegisters.readReg_eq {s t : State} (h : SameRegisters s t) (r : Reg) : t.readReg r = s.readReg r := by
  rw [h]
  cases r <;> rfl

/-- `rst` leaves the registers of the reset state. -/
theorem sameRegisters_rst (s : State) : SameRegisters State.reset s.rst := rfl

/-- The policy at reset asks for one question and no record (10_state.md R30, R45). -/
theorem reset_policy : State.reset.polQdcount = 1 ∧ State.reset.polAncount = 0 ∧ State.reset.polNscount = 0 ∧
    State.reset.polArcount = 0 := by
  decide

/-- Settles O2: with BUSY = 0 after `rst` the engine is idle, and CLEAR writes no input. -/
theorem rstGivesEveryRegisterItsResetValue : Obligations.RstGivesEveryRegisterItsResetValue := by
  intro s
  have hidle : engineStep s.rst = .next s.rst := (engineStep_eq s.rst).trans (engineTurn_idle rfl)
  obtain ⟨u, hu, hctrl, -, hqdan, hnsar, -⟩ := noCommandWritesItsInputs .clear s
  obtain ⟨hqd, han, hns, har⟩ := reset_policy
  exact ⟨s.rst, rstStep_eq s, sameRegisters_rst s, (sameRegisters_rst s).readReg_eq, rfl, rfl, hqd, han, hns, har,
    rfl, rfl, rfl, rfl, hidle, u, hu, hctrl, hqdan, hnsar⟩

end Sys2Proof.Machine
